-- ==== Sys2Proof/Word.lean ====
section
/-! DEFINITION. The widths of the PVFD's data: bytes of a frame, 16-bit registers, nibbles (spec 00_scope.md R10,
10_state.md R21). Arithmetic on them is in Machine/Operands.lean. -/

namespace Sys2Proof

/-- One byte, bit 7 its most significant (R10). The only unit the frame buffer is addressed in (R40). -/
abbrev Byte := BitVec 8

/-- A 16-bit register value (R21). -/
abbrev Half := BitVec 16

/-- Half of a byte, for the battery and signal levels (R21, R67). -/
abbrev Nibble := BitVec 4

end Sys2Proof
end

