-- ==== Sys2Proof/Config.lean ====
section
/-! DEFINITION. The configuration registers CFG (spec 10_state.md R24) and the two things the spec leaves to the
integrator (00_scope.md R9, 70_reset_and_hazards.md R162), each an opaque constant: no proof can see its value. -/

namespace Sys2Proof

/-- The latched configuration, one field per row of the table of R24. A field outside its legal values is latched
all the same, bit for bit; what each such value does is said where it is used. -/
structure Cfg where
  /-- `PT_TR`: packet type of the Temp/Rain family. -/
  ptTr : Byte
  /-- `PT_TH`: packet type of the Temp/Humidity family. -/
  ptTh : Byte
  /-- `TR_SUBTYPES`: bit `s` set when subtype `s` is in the dispatch table for `PT_TR`. -/
  trSubtypes : BitVec 256
  /-- `TH_SUBTYPES`: the same for `PT_TH`. -/
  thSubtypes : BitVec 256
  /-- `ML`: length of the full marker; 0 means the full variant never matches. -/
  ml : Byte
  /-- `MK_FULL`: the bytes on the strap port of the full marker; those at index `ML` and up are ignored. -/
  mkFull : List Byte
  /-- `MS`: length of the shortened marker; 0 means there is none. -/
  ms : Byte
  /-- `MK_SHORT`: the bytes on the strap port of the shortened marker; those at index `MS` and up are ignored. -/
  mkShort : List Byte
  /-- `TH_CAL`: the integrator's assertion that the offset table passed its calibration test. -/
  thCal : Bool
  /-- `TH_FIELDS_LEN`: number of leading payload bytes that may hold Temp/Humidity fields. -/
  thFieldsLen : Byte
  /-- `TH_OFF_SEQ`: payload offset of the sequence number. -/
  thOffSeq : Byte
  /-- `TH_OFF_CHAN`: payload offset of the channel. -/
  thOffChan : Byte
  /-- `TH_OFF_ID`: payload offset of the sensor id's high byte. -/
  thOffId : Byte
  /-- `TH_OFF_TEMP`: payload offset of the temperature's high byte. -/
  thOffTemp : Byte
  /-- `TH_OFF_HUM`: payload offset of the humidity byte. -/
  thOffHum : Byte
  /-- `TH_OFF_HUMST`: payload offset of the byte with the 2-bit humidity-status field. -/
  thOffHumst : Byte
  /-- `TH_HUMST_SHIFT`: bit position of that field's low bit. -/
  thHumstShift : BitVec 3
  /-- `TH_HUMST_MAP[0..3]`: wire code to humidity-status code. -/
  thHumstMap : Vector (BitVec 2) 4
  /-- `TH_OFF_STATUS`: payload offset of the status byte. -/
  thOffStatus : Byte
deriving DecidableEq, Repr, Inhabited

/-- The levels on the `cfg_*` straps of this instance. DESIGN CHOICE (log entry 3): the spec names no value and no
default (R9), so this is a constant without a body; a statement that mentions it holds for every strapping. -/
opaque Config.straps : Cfg

/-- `ThCalibrated(CFG)` of R162: the offset table was validated against authoritative reference packets. An
assumption about the world that no rule can establish (log entry 12), so it has no body either. -/
opaque Config.thCalibrated : Cfg → Bool

end Sys2Proof
end

