-- ==== Sys2Proof/Syntax.lean ====
section
/-! DEFINITION. The syntax of the hardware: its six instructions (one constructor per row of spec/opcode_table.json),
the two encodings they have (a sample of the ports, a frame), the five error kinds, and the written notation of
spec 30_encoding.md R73 and R74. -/

namespace Sys2Proof

/-- The instructions: two frame families (30_encoding.md R69) and four port events (00_scope.md R5). -/
inductive Instr where
  /-- `TEMP_RAIN` (R110). Operands: the packet type and every payload byte, offset 0 (`subtype`) first. -/
  | tempRain (pt : Byte) (payload : List Byte)
  /-- `TEMP_HUM` (R120). Operands: the packet type and every payload byte, the trailing marker included (R97). -/
  | tempHum (pt : Byte) (payload : List Byte)
  /-- `ACCEPT` (R82): event `BYTE(b, 0)`. -/
  | accept (b : Byte)
  /-- `COMPLETE` (R83): event `BYTE(b, 1)`. -/
  | complete (b : Byte)
  /-- `IDLE` (R84). -/
  | idle
  /-- `RESET` (R160). Operands: the strap inputs at that edge. -/
  | reset (straps : Cfg)
deriving DecidableEq, Repr

/-- The input ports at one rising clock edge (10_state.md R27). -/
structure PortEdge where
  /-- The port word of opcode_table.json: `rst` bit 10, `in_valid` bit 9, `in_last` bit 8, `in_byte` bits 7:0. -/
  word : BitVec 11
  /-- The levels on the `cfg_*` straps, sampled only when `rst` is 1 (R165). -/
  straps : Cfg
deriving DecidableEq, Repr, Inhabited

/-- What an instruction is read from: a port sample for the four events, a whole frame for the two families. -/
inductive Encoding where
  | edge (e : PortEdge)
  | frame (bytes : List Byte)
deriving DecidableEq, Repr

/-- The closed list of error kinds (60_exceptions.md R140). -/
inductive FrameError where
  | lengthMismatch
  | tooShort
  | badMarker
  | unknownFamily
  | unsupportedFamily
deriving DecidableEq, Repr

/-- What an error records: its kind and the packet type reported in `out_pt` (R141). -/
structure Reject where
  kind : FrameError
  pt : Byte
deriving DecidableEq, Repr

/-- A line of a program in the notation of R73 and R74. -/
inductive Line where
  /-- `raw [b0, …]`: one frame, exactly these bytes. -/
  | raw (bytes : List Byte)
  /-- `frame PT, [p0, …]`: a frame whose declared length is computed. -/
  | frame (pt : Byte) (payload : List Byte)
  /-- `tr PT, sub, seq, id, temp, rain, batt, sig`. -/
  | tr (pt sub seq : Byte) (id : Half) (temp : Int) (rain : Half) (batt sig : Nibble)
  /-- `th CFG, PT, sub, seq, chan, id, temp, hum, code, batt, sig, marker`. -/
  | th (cfg : Cfg) (pt sub seq chan : Byte) (id : Half) (temp : Int) (hum : Byte) (code : BitVec 2)
      (batt sig : Nibble) (marker : List Byte)
  /-- `reset CFGNAME`: a `RESET` event with the straps at this configuration. -/
  | reset (cfg : Cfg)
  /-- `idle`: one `IDLE` event. -/
  | idle
  /-- `part [b0, …]`: the start of a frame that is not completed. -/
  | part (bytes : List Byte)
deriving DecidableEq, Repr

end Sys2Proof
end

