-- ==== Sys2Proof/Machine/Layout.lean ====
section
/-! DEFINITION. What the configuration says about a frame: the lengths fixed by the spec (00_scope.md R7), the family
of a packet type (41_frame_validation.md R94), membership in the dispatch table (42_family_dispatch.md R101), the
Temp/Humidity table's well-formedness and effective calibration (44_temp_humidity.md R121), and the vendor marker
(R95, R96). Each is a function of CFG and of the bytes it names. -/

namespace Sys2Proof

/-- `MIN_PAYLOAD` (R7): the global floor on the payload length. -/
def minPayload : Nat := 7

/-- `TR_MIN_PAYLOAD` (R7): the least payload length of a Temp/Rain frame. -/
def trMinPayload : Nat := 9

/-- Bit `st` of a 256-bit subtype set (R24, R101). -/
def subtypeIn (set : BitVec 256) (st : Byte) : Bool := set.getLsbD st.toNat

/-- `one(o)` of R121: a 1-byte field at offset `o` fits the field region. -/
def fitsOne (cfg : Cfg) (o : Byte) : Bool := decide (1 ≤ o.toNat ∧ o.toNat < cfg.thFieldsLen.toNat)

/-- `two(o)` of R121: a 2-byte field at offset `o` fits the field region. -/
def fitsTwo (cfg : Cfg) (o : Byte) : Bool := decide (1 ≤ o.toNat ∧ o.toNat + 1 < cfg.thFieldsLen.toNat)

/-- `TH_CFG_OK` (R121). -/
def thCfgOk (cfg : Cfg) : Bool :=
  decide (1 ≤ cfg.thFieldsLen.toNat)
    && fitsOne cfg cfg.thOffSeq && fitsOne cfg cfg.thOffChan && fitsOne cfg cfg.thOffHum
    && fitsOne cfg cfg.thOffHumst && fitsOne cfg cfg.thOffStatus
    && fitsTwo cfg cfg.thOffId && fitsTwo cfg cfg.thOffTemp
    && decide (cfg.thHumstShift.toNat ≤ 6)

/-- `TH_EFF_CAL` (R121): marked calibrated, and the table is well formed. -/
def thEffCal (cfg : Cfg) : Bool := cfg.thCal && thCfgOk cfg

/-- `MKMIN` (R95): the length of the shortest marker variant there is. -/
def mkMin (cfg : Cfg) : Nat := if 1 ≤ cfg.ms.toNat then cfg.ms.toNat else cfg.ml.toNat

/-- `FLe` (R96): the marker lies at this payload offset or after it. -/
def markerFloor (cfg : Cfg) : Nat := if thEffCal cfg then cfg.thFieldsLen.toNat else 1

/-- `match(V, n)` of R96 for a payload of `plen` bytes: the last `n` bytes are the first `n` of `v`, byte for byte.
A length `n` beyond the strapped bytes `v` has bytes that the strap port does not carry, so it matches nothing
(DESIGN CHOICE, log entry 5). -/
def markerMatches (cfg : Cfg) (payload : List Byte) (plen : Nat) (v : List Byte) (n : Nat) : Bool :=
  decide (1 ≤ n ∧ markerFloor cfg + n ≤ plen ∧ payload.drop (plen - n) = v.take n)

/-- Either variant suffices (R96). -/
def markerAccepted (cfg : Cfg) (payload : List Byte) (plen : Nat) : Bool :=
  markerMatches cfg payload plen cfg.mkFull cfg.ml.toNat
    || markerMatches cfg payload plen cfg.mkShort cfg.ms.toNat

end Sys2Proof
end

