-- ==== Sys2Proof/WellFormed.lean ====
section
/-! DEFINITION. Well-formed configurations (spec 00_scope.md R9, 70_reset_and_hazards.md R162), instructions and
program lines. A strap value that is not well formed is still latched by RESET; this is no check of the hardware. -/

namespace Sys2Proof

/-- `CfgWellFormed(CFG)`: what the integrator owes by duty (1) of R162, which R9's table lists as constraints too, with
the marker bytes all on the strap ports. DESIGN CHOICE (log entry 14): R9's table also lists `TH_CFG_OK`, duty (1) does
not, and the model leaves it out; and `TR_SUBTYPES` must hold 0x01, as R9 says without R162's condition. -/
def Cfg.wellFormed (cfg : Cfg) : Bool :=
  decide (cfg.ptTr ≠ cfg.ptTh)
    && subtypeIn cfg.trSubtypes 0x01#8
    && decide (1 ≤ cfg.ml.toNat)
    && decide (cfg.ms.toNat = 0 ∨ cfg.ms.toNat < cfg.ml.toNat)
    && decide (cfg.ml.toNat ≤ cfg.mkFull.length)
    && decide (cfg.ms.toNat ≤ cfg.mkShort.length)

/-- The subtype, payload byte 0, is in the set (R101). -/
def subtypeListed (set : BitVec 256) : List Byte → Bool
  | [] => false
  | st :: _ => subtypeIn set st

/-- An instruction that a machine configured with `cfg` can be given: every event, and the frames that pass all
stages of R90. -/
def Instr.wellFormed (cfg : Cfg) : Instr → Bool
  | .tempRain pt payload =>
    decide (pt = cfg.ptTr) && decide (trMinPayload ≤ payload.length) && decide (payload.length ≤ 254)
      && subtypeListed cfg.trSubtypes payload
  | .tempHum pt payload =>
    decide (pt = cfg.ptTh) && decide (pt ≠ cfg.ptTr)
      && decide (minPayload ≤ payload.length) && decide (payload.length ≤ 254)
      && decide (cfg.thFieldsLen.toNat + mkMin cfg ≤ payload.length)
      && markerAccepted cfg payload payload.length
      && subtypeListed cfg.thSubtypes payload && thEffCal cfg
  | .accept _ => true
  | .complete _ => true
  | .idle => true
  | .reset _ => true

/-- The operands for which R73 and R74 define a line. -/
def Line.wellFormed : Line → Bool
  | .raw bytes => decide (1 ≤ bytes.length)
  | .frame _ payload => decide (payload.length ≤ 254)
  | .tr _ _ _ _ temp _ _ _ => decide (temp.natAbs ≤ 32767)
  | .th cfg _ _ _ _ _ temp _ _ _ _ marker =>
    decide (temp.natAbs ≤ 32767) && decide (cfg.thFieldsLen.toNat + marker.length ≤ 254)
      && thCfgOk cfg
      && (decide (marker = cfg.mkFull.take cfg.ml.toNat) || decide (marker = cfg.mkShort.take cfg.ms.toNat))
  | .reset _ => true
  | .idle => true
  | .part _ => true

end Sys2Proof
end

