-- ==== Sys2Proof/Decode.lean ====
section
/-! DEFINITION. From bits to instructions, and back. A port sample always decodes (00_scope.md R5). A frame is
decoded by the stages of spec 41_frame_validation.md R90 and 42_family_dispatch.md R100, and is rejected by the name
of the first error that applies (60_exceptions.md R142). -/

namespace Sys2Proof

/-- The frame seen as its header and payload (glossary of 00_scope.md). `plen` is `PLEN = n - 2`; `payload` holds the
bytes the buffer kept, which are all of them whenever the length check passes (R92). -/
structure RawFrame where
  declaredLength : Byte
  packetType : Byte
  payload : List Byte
  plen : Nat
deriving DecidableEq, Repr

/-- The family by packet type alone (R94). -/
inductive Family where
  | none
  | tr
  | th
deriving DecidableEq, Repr

/-- The two targets of DISPATCH (R100). -/
inductive Decoder where
  | tempRain
  | tempHum
deriving DecidableEq, Repr

/-- A frame that passed every stage, handed on unchanged (R97), and the decoder it selects. -/
structure Selected where
  decoder : Decoder
  pt : Byte
  payload : List Byte
deriving DecidableEq, Repr

/-- Stage `CHK_HDR` (R91): a frame of `n` bytes needs a header. -/
def chkHdr (n : Nat) (bytes : List Byte) : Except Reject RawFrame :=
  if n < 2 then .error ⟨.tooShort, 0x00#8⟩
  else match bytes with
    | l :: pt :: payload => .ok ⟨l, pt, payload, n - 2⟩
    | _ => .error ⟨.tooShort, 0x00#8⟩

/-- Stage `CHK_LEN` (R92). The comparison is on unbounded numbers, so `1 + PLEN` does not wrap (R75(d)). -/
def chkLen (f : RawFrame) : Except Reject Unit :=
  if f.declaredLength.toNat = 1 + f.plen then .ok () else .error ⟨.lengthMismatch, f.packetType⟩

/-- Stage `CHK_FLOOR` (R93). -/
def chkFloor (f : RawFrame) : Except Reject Unit :=
  if f.plen < minPayload then .error ⟨.tooShort, f.packetType⟩ else .ok ()

/-- Stage `CLASSIFY` (R94): Temp/Rain wins a tie of the two packet types. -/
def classify (cfg : Cfg) (pt : Byte) : Family :=
  if pt = cfg.ptTr then .tr else if pt = cfg.ptTh then .th else .none

/-- Stage `CHK_FAMMIN` (R95). -/
def chkFamMin (cfg : Cfg) (fam : Family) (f : RawFrame) : Except Reject Unit :=
  match fam with
  | .none => .ok ()
  | .tr => if f.plen < trMinPayload then .error ⟨.tooShort, f.packetType⟩ else .ok ()
  | .th =>
    if thEffCal cfg = true ∧ f.plen < cfg.thFieldsLen.toNat + mkMin cfg then .error ⟨.tooShort, f.packetType⟩
    else .ok ()

/-- Stage `CHK_MARKER` (R96): only the Temp/Humidity family has a marker. -/
def chkMarker (cfg : Cfg) (fam : Family) (f : RawFrame) : Except Reject Unit :=
  match fam with
  | .none => .ok ()
  | .tr => .ok ()
  | .th => if markerAccepted cfg f.payload f.plen then .ok () else .error ⟨.badMarker, f.packetType⟩

/-- Operation `GATE_TH` (R102): the calibration gate. -/
def gateTh (cfg : Cfg) (f : RawFrame) : Except Reject Decoder :=
  if thEffCal cfg then .ok .tempHum else .error ⟨.unsupportedFamily, f.packetType⟩

/-- Operation `DISPATCH` (R101), with `GATE_TH` after it for the Temp/Humidity family. A payload without a subtype
byte is in no row of the table; CHK_FLOOR lets none through. -/
def dispatch (cfg : Cfg) (fam : Family) (f : RawFrame) : Except Reject Decoder :=
  match fam with
  | .none => .error ⟨.unknownFamily, f.packetType⟩
  | .tr =>
    if subtypeListed cfg.trSubtypes f.payload then .ok .tempRain else .error ⟨.unknownFamily, f.packetType⟩
  | .th =>
    if subtypeListed cfg.thSubtypes f.payload then gateTh cfg f else .error ⟨.unknownFamily, f.packetType⟩

/-- The stages in the order of R90, leaving at the first error. `n` is the frame length, saturated at 257 by the
intake, and `bytes` the bytes the buffer holds of it. -/
def selectDecoder (cfg : Cfg) (n : Nat) (bytes : List Byte) : Except Reject Selected := do
  let f ← chkHdr n bytes
  chkLen f
  chkFloor f
  chkFamMin cfg (classify cfg f.packetType) f
  chkMarker cfg (classify cfg f.packetType) f
  let d ← dispatch cfg (classify cfg f.packetType) f
  return ⟨d, f.packetType, f.payload⟩

/-- The instruction of a selected frame. -/
def instrOf (sel : Selected) : Instr :=
  match sel.decoder with
  | .tempRain => .tempRain sel.pt sel.payload
  | .tempHum => .tempHum sel.pt sel.payload

/-- The decoder of whole frames, total on any bytes. -/
def decodeFrame (cfg : Cfg) (bytes : List Byte) : Except Reject Instr :=
  (selectDecoder cfg bytes.length bytes).map instrOf

/-- The decoder of port samples (R5 and the EVENT rows of opcode_table.json): `rst` wins over `in_valid`, and the
bits the table marks `x` are ignored. Every sample is an event. -/
def decodeEdge (e : PortEdge) : Instr :=
  if e.word.getLsbD 10 then .reset e.straps
  else if e.word.getLsbD 9 then
    if e.word.getLsbD 8 then .complete (e.word.truncate 8) else .accept (e.word.truncate 8)
  else .idle

/-- The decoder, total on any bits, rejecting a frame by name. -/
def decode (cfg : Cfg) : Encoding → Except Reject Instr
  | .edge e => .ok (decodeEdge e)
  | .frame bytes => decodeFrame cfg bytes

/-- The bytes of a frame with this packet type and payload: the `frame` line of R74, the declared length computed. -/
def frameBytes (pt : Byte) (payload : List Byte) : List Byte :=
  BitVec.ofNat 8 (1 + payload.length) :: pt :: payload

/-- The encoder, from the encodings of opcode_table.json. Bits the table marks `x` are written 0, and straps that
the event does not sample are left at the instance's levels. -/
def encode : Instr → Encoding
  | .tempRain pt payload => .frame (frameBytes pt payload)
  | .tempHum pt payload => .frame (frameBytes pt payload)
  | .accept b => .edge ⟨0b010#3 ++ b, Config.straps⟩
  | .complete b => .edge ⟨0b011#3 ++ b, Config.straps⟩
  | .idle => .edge ⟨0x000#11, Config.straps⟩
  | .reset straps => .edge ⟨0x400#11, straps⟩

/-- A port sample with this word, the straps at the instance's levels. -/
def tableEdge (w : Nat) : PortEdge := ⟨BitVec.ofNat 11 w, Config.straps⟩

/-- The frame whose 24-bit header word `{FB[0], FB[1], FB[2]}` is `w`: its first three bytes, then payload bytes of
zero up to the length the first byte declares (log entry 11). -/
def tableFrame (w : Nat) : List Byte :=
  BitVec.ofNat 8 (w / 65536) :: BitVec.ofNat 8 (w / 256) :: BitVec.ofNat 8 w ::
    List.replicate (w / 65536 % 256 - 2) 0x00#8

/-- What the decoder reads from a row's bits as opcode_table.json numbers them: a port word for the rows of 11 bits,
a frame's header word for the rows of 24 bits, the latter under the instance's straps. -/
def decodeTableWord (nbits w : Nat) : Option Instr :=
  if nbits ≤ 16 then
    if w < 2048 then (decode Config.straps (.edge (tableEdge w))).toOption else none
  else if w < 16777216 then (decode Config.straps (.frame (tableFrame w))).toOption
  else none

end Sys2Proof
end

