-- ==== Sys2Proof/Machine/State.lean ====
section
/-! DEFINITION. The state of one PVFD (spec 10_state.md R20: the tuple `(CFG, FB, N, OUT)`) with the model's own list
of port samples to come, the reasons a step can stop, and the state right after reset (R28). -/

namespace Sys2Proof.Machine

/-- The ten reading registers (R21). -/
structure Reading where
  rdSubtype : Byte
  rdSeq : Byte
  rdId : Half
  /-- Two's complement, in tenths of a degree Celsius. -/
  rdTemp : Half
  /-- In tenths of a millimetre. -/
  rdRain : Half
  rdBatt : Nibble
  rdSig : Nibble
  rdChan : Byte
  /-- In percent; not range-checked (R127). -/
  rdHum : Byte
  /-- A code of R8: 0 DRY, 1 NORMAL, 2 COMFORTABLE, 3 WET. -/
  rdHumst : BitVec 2
deriving DecidableEq, Repr

/-- What a completed frame writes into OUT, all of it together (R21, R83): three status registers of R22 and the ten
reading registers. The fourth status register, the strobe `out_valid`, every event writes; it is a field of State. -/
structure OutRecord where
  outErr : BitVec 3
  outKind : BitVec 2
  outPt : Byte
  reading : Reading
deriving DecidableEq, Repr

/-- The frame buffer FB (R25): the bytes that have been written, by index, in one canonical form (Memory.wf in
Machine/Ops.lean). An index that is not listed holds no value, as R28 says a model may hold it (log entry 4). -/
abbrev Memory := List Host.Cell

/-- The whole state (R20). -/
structure State where
  /-- CFG, written by RESET only (R24). -/
  cfg : Cfg
  /-- FB (R25). -/
  fb : Memory
  /-- The byte counter N, range 0 to 257 (R23). -/
  n : BitVec 9
  /-- `out_valid` (R22). -/
  outValid : Bool
  /-- The rest of OUT (R21, R22). -/
  out : OutRecord
  /-- The MODEL's own field (DESIGN CHOICE, log entry 1): what the input ports carry at the clock edges to come,
  oldest first. The transport and the integrator choose it; no rule of the spec writes it. -/
  pending : List PortEdge
deriving DecidableEq, Repr

/-- Why the model stops. The spec has no such stop (R5): each is raised only by a read that R46 shows no rule makes,
from a state that no run from reset reaches. All three are safe: the model stops where it has no value. -/
inductive Fault where
  /-- Raised by memRead: the buffer byte at this index was never written (R28, log entry 4). Safe. -/
  | unwrittenByte (index : Nat)
  /-- Raised by memRead: the buffer has no such index, 256 or more (R40). Safe. -/
  | noSuchIndex (index : Nat)
  /-- Raised by the operand forms: the payload has no byte at this offset (R46, log entry 7). Safe. -/
  | beyondPayload (offset : Nat)
deriving DecidableEq, Repr

/-- Why the model gives an instruction no meaning. -/
inductive Refusal where
  /-- Raised by exec's arm of an instruction that has no meaning yet; no arm does so. Safe. -/
  | notModelled (mnemonic : String)
deriving DecidableEq, Repr

/-- The outcome of one step. -/
abbrev Outcome := Host.Outcome State Fault Refusal

/-- All ten reading registers 0 (R28, R143). -/
def Reading.zero : Reading :=
  { rdSubtype := 0, rdSeq := 0, rdId := 0, rdTemp := 0, rdRain := 0, rdBatt := 0, rdSig := 0, rdChan := 0,
    rdHum := 0, rdHumst := 0 }

/-- OUT after reset: no error, kind NONE, packet type 0x00 (R28). -/
def OutRecord.cleared : OutRecord :=
  { outErr := 0, outKind := 0, outPt := 0, reading := Reading.zero }

/-- The machine right after a RESET event (R28). CFG holds the straps of that edge, which no proof can see (DESIGN
CHOICE, log entry 3); FB lists nothing; no event is waiting (log entry 1). -/
def State.reset : State :=
  { cfg := Config.straps, fb := [], n := 0, outValid := false, out := OutRecord.cleared, pending := [] }

end Sys2Proof.Machine
end

