-- ==== Sys2Proof/Machine/Operands.lean ====
section
/-! DEFINITION. The operand forms of the two frame instructions (spec 30_encoding.md R64 to R68) with their
arithmetic (R75). Each reads the payload bytes it names; an offset beyond the payload has no byte and faults. -/

namespace Sys2Proof.Machine

/-- `neg16(m)` of R11 and R75(f): 16-bit two's-complement negation. -/
def neg16 (m : Half) : Half := BitVec.ofNat 16 ((65536 - m.toNat) % 65536)

/-- `h << 8 | l` in 16 bits (R75(a)): big-endian assembly (R42). -/
def be16 (h l : Byte) : Half := h.zeroExtend 16 <<< 8 ||| l.zeroExtend 16

/-- The magnitude of a sign-and-magnitude pair: bit 7 of the first byte dropped (R66). -/
def magnitude (h l : Byte) : Half := be16 (h &&& 0x7F#8) l

/-- Sign and magnitude to two's complement (R66); negative zero gives 0. -/
def signMag (h l : Byte) : Half := if h.getLsbD 7 then neg16 (magnitude h l) else magnitude h l

/-- Bits 3:0 of a byte (R67). -/
def lowNibble (b : Byte) : Nibble := (b &&& 0x0F#8).truncate 4

/-- Bits 7:4 of a byte (R67). -/
def highNibble (b : Byte) : Nibble := (b >>> 4 &&& 0x0F#8).truncate 4

/-- The 2-bit slice whose low bit is at `sh` (R68). -/
def slice2 (b : Byte) (sh : Nat) : BitVec 2 := (b >>> sh &&& 0x03#8).truncate 2

/-- `U8(k) = P[k]` (R64). -/
def u8 (p : List Byte) (k : Nat) : Except Fault Byte :=
  match p[k]? with
  | some b => .ok b
  | none => .error (.beyondPayload k)

/-- `U16BE(k)` (R65). -/
def u16be (p : List Byte) (k : Nat) : Except Fault Half := do
  let h ← u8 p k
  let l ← u8 p (k + 1)
  return be16 h l

/-- `SM16(k)` (R66). -/
def sm16 (p : List Byte) (k : Nat) : Except Fault Half := do
  let h ← u8 p k
  let l ← u8 p (k + 1)
  return signMag h l

/-- `NIBLO(k)` (R67). -/
def nibLo (p : List Byte) (k : Nat) : Except Fault Nibble := (u8 p k).map lowNibble

/-- `NIBHI(k)` (R67). -/
def nibHi (p : List Byte) (k : Nat) : Except Fault Nibble := (u8 p k).map highNibble

/-- `BITS2(k, sh)` (R68). -/
def bits2 (p : List Byte) (k sh : Nat) : Except Fault (BitVec 2) := (u8 p k).map (slice2 · sh)

end Sys2Proof.Machine
end

