-- ==== Sys2Proof/Machine/Flags.lean ====
section
/-! DEFINITION. The numeric codes of the status registers (spec 00_scope.md R8, 60_exceptions.md R140,
10_state.md R22). -/

namespace Sys2Proof.Machine

/-- `out_err` (R140). Codes 6 and 7 do not exist. -/
def errCode : FrameError → BitVec 3
  | .lengthMismatch => 1
  | .tooShort => 2
  | .badMarker => 3
  | .unknownFamily => 4
  | .unsupportedFamily => 5

/-- `out_err` of a frame that decoded (R140). -/
def errNone : BitVec 3 := 0

/-- `out_kind` with no reading: an error, or nothing yet (R22). -/
def kindNone : BitVec 2 := 0

/-- `out_kind` of a Temp/Rain reading (R22). -/
def kindTempRain : BitVec 2 := 1

/-- `out_kind` of a Temp/Humidity reading (R22). -/
def kindTempHum : BitVec 2 := 2

end Sys2Proof.Machine
end

