-- ==== Sys2Proof/Machine/Ops.lean ====
section
/-! DEFINITION. The named operations on the frame buffer (spec 20_memory.md R40 to R46), the byte counter (10_state.md
R23) and the output record, and taking an error (60_exceptions.md R143). There is no return from an error to stand
beside it: R144, "There is no return instruction and no handler to return from". -/

namespace Sys2Proof.Machine

/-- `FB_SIZE` (R8): bytes in the frame buffer. -/
def fbSize : Nat := 256

/-- `N_SAT` (R8): where the byte counter saturates. -/
def nSat : Nat := 257

/-- The indexes strictly rise from `lo` and lie in the buffer. -/
def wfFrom (lo : Nat) : Memory → Bool
  | [] => true
  | (i, _) :: rest => decide (lo ≤ i) && decide (i < fbSize) && wfFrom (i + 1) rest

/-- The canonical form of the buffer: strictly rising indexes, all in 0 to 255. An unlisted index holds no value, so
no listed byte can equal it. -/
def Memory.wf (m : Memory) : Bool := wfFrom 0 m

/-- The byte listed at an index, if one was written. -/
def Memory.find (i : Nat) : Memory → Option Byte
  | [] => none
  | (j, b) :: rest => if i = j then some b else Memory.find i rest

/-- Put a byte at an index, keeping the canonical form. -/
def Memory.put (i : Nat) (b : Byte) : Memory → Memory
  | [] => [(i, b)]
  | (j, c) :: rest =>
    if i < j then (i, b) :: (j, c) :: rest
    else if i = j then (i, b) :: rest
    else (j, c) :: Memory.put i b rest

/-- `MemRead(i, 1) = FB[i]` (R11). -/
def memRead (m : Memory) (i : Nat) : Except Fault Byte :=
  if i < fbSize then
    match m.find i with
    | some b => .ok b
    | none => .error (.unwrittenByte i)
  else .error (.noSuchIndex i)

/-- The `k` bytes from index `i` on, lowest index first. -/
def memRange (m : Memory) (i : Nat) : Nat → Except Fault (List Byte)
  | 0 => .ok []
  | k + 1 => do
    let b ← memRead m i
    let rest ← memRange m (i + 1) k
    return b :: rest

/-- The bytes of a frame of `n` bytes that the buffer holds: indexes below `min(n, 256)` and no other (R46, R90). -/
def fetchFrame (m : Memory) (n : Nat) : Except Fault (List Byte) := memRange m 0 (min n fbSize)

/-- `MemWrite(N, 1, b)` when `N <= 255`; a byte past the 256th is dropped (R82). -/
def storeByte (b : Byte) (s : State) : State :=
  { s with fb := if s.n.toNat ≤ 255 then s.fb.put s.n.toNat b else s.fb }

/-- `N <- min(N + 1, 257)` (R23, R82). -/
def countByte (s : State) : State := { s with n := BitVec.ofNat 9 (min (s.n.toNat + 1) nSat) }

/-- A byte arrives: it is stored and then counted (R82, R83). -/
def takeByte (b : Byte) (s : State) : State := countByte (storeByte b s)

/-- `out_valid <- 0` (R22, R82, R84). -/
def dropValid (s : State) : State := { s with outValid := false }

/-- Write the whole of OUT but the strobe, all of it together (R21). -/
def writeOut (o : OutRecord) (s : State) : State := { s with out := o }

/-- The end of a frame (R83): OUT written, `out_valid <- 1`, `N <- 0`. -/
def finishFrame (o : OutRecord) (s : State) : State := { writeOut o s with outValid := true, n := 0 }

/-- What an error writes into OUT (R143): its code, kind NONE, the packet type, all ten reading registers 0. -/
def errorRecord (r : Reject) : OutRecord :=
  { outErr := errCode r.kind, outKind := kindNone, outPt := r.pt, reading := Reading.zero }

/-- Taking an error, `raise <Kind>` (R143). Nothing is saved and control goes nowhere. -/
def raiseError (r : Reject) (s : State) : State := finishFrame (errorRecord r) s

/-- What the ports carry at the coming edge. After the last listed edge `in_valid` and `rst` are 0 (DESIGN CHOICE,
log entry 2). -/
def nextEdge (s : State) : PortEdge :=
  match s.pending with
  | [] => ⟨0x000#11, Config.straps⟩
  | e :: _ => e

/-- The coming edge has passed. -/
def passEdge (s : State) : State := { s with pending := s.pending.tail }

/-- This sample comes next, before whatever was to come. -/
def offerEdge (e : PortEdge) (s : State) : State := { s with pending := e :: s.pending }

/-- The bytes are in the buffer from index `i` on. -/
def putBytes (i : Nat) : List Byte → Memory → Memory
  | [], m => m
  | b :: rest, m => putBytes (i + 1) rest (m.put i b)

/-- All bytes of a frame but its last have been taken, and the last one comes next with `in_last` at 1. -/
def offerFrame (bytes : List Byte) (s : State) : State :=
  offerEdge ⟨0b011#3 ++ bytes.getLastD 0x00#8, Config.straps⟩
    { s with fb := putBytes 0 bytes.dropLast s.fb, n := BitVec.ofNat 9 (bytes.length - 1) }

end Sys2Proof.Machine
end

