-- ==== Sys2Proof/Machine/TempHum.lean ====
section
/-! DEFINITION. Instruction TEMP_HUM (spec 44_temp_humidity.md). Every offset but the subtype's is configuration. -/

namespace Sys2Proof.Machine

/-- `TH_HUMST_MAP[code]` (R128). -/
def humStatus (cfg : Cfg) (code : BitVec 2) : BitVec 2 := cfg.thHumstMap[code.toNat]

/-- The output record of a Temp/Humidity frame (R120), each field by the rule named beside it. -/
def tempHumRecord (cfg : Cfg) (pt : Byte) (p : List Byte) : Except Fault OutRecord := do
  let subtype ← u8 p 0 -- R122
  let seq ← u8 p cfg.thOffSeq.toNat -- R123
  let chan ← u8 p cfg.thOffChan.toNat -- R124
  let id ← u16be p cfg.thOffId.toNat -- R125
  let temp ← sm16 p cfg.thOffTemp.toNat -- R126
  let hum ← u8 p cfg.thOffHum.toNat -- R127
  let code ← bits2 p cfg.thOffHumst.toNat cfg.thHumstShift.toNat -- R128
  let batt ← nibLo p cfg.thOffStatus.toNat -- R129
  let sig ← nibHi p cfg.thOffStatus.toNat -- R129
  return {
    outErr := errNone, outKind := kindTempHum, outPt := pt
    reading := {
      rdSubtype := subtype, rdSeq := seq, rdId := id, rdTemp := temp, rdRain := 0, rdBatt := batt, -- rain: R130
      rdSig := sig, rdChan := chan, rdHum := hum, rdHumst := humStatus cfg code } }

/-- `TEMP_HUM` (R120): the whole record is written together. -/
def execTempHum (pt : Byte) (p : List Byte) (s : State) : Outcome :=
  match tempHumRecord s.cfg pt p with
  | .ok o => .next (writeOut o s)
  | .error f => .fault f

end Sys2Proof.Machine
end

