-- ==== Sys2Proof/Machine/TempRain.lean ====
section
/-! DEFINITION. Instruction TEMP_RAIN (spec 43_temp_rain.md). -/

namespace Sys2Proof.Machine

/-- The output record of a Temp/Rain frame (R110), each field by the rule named beside it. -/
def tempRainRecord (pt : Byte) (p : List Byte) : Except Fault OutRecord := do
  let subtype ← u8 p 0 -- R115
  let seq ← u8 p 1 -- R115
  let id ← u16be p 2 -- R111
  let temp ← sm16 p 4 -- R112
  let rain ← u16be p 6 -- R113
  let batt ← nibLo p 8 -- R114
  let sig ← nibHi p 8 -- R114
  return {
    outErr := errNone, outKind := kindTempRain, outPt := pt
    reading := {
      rdSubtype := subtype, rdSeq := seq, rdId := id, rdTemp := temp, rdRain := rain, rdBatt := batt,
      rdSig := sig, rdChan := 0, rdHum := 0, rdHumst := 0 } } -- the last three: R116

/-- `TEMP_RAIN` (R110): the whole record is written together. -/
def execTempRain (pt : Byte) (p : List Byte) (s : State) : Outcome :=
  match tempRainRecord pt p with
  | .ok o => .next (writeOut o s)
  | .error f => .fault f

end Sys2Proof.Machine
end

