-- ==== Sys2Proof/Machine/Intake.lean ====
section
/-! DEFINITION. The three events of the intake (spec 40_frame_intake.md) and the evaluation of a frame
(41_frame_validation.md R90) that COMPLETE runs. -/

namespace Sys2Proof.Machine

/-- The record of a frame that passed every stage, by the decoder it selected (R100). -/
def selectedRecord (cfg : Cfg) (sel : Selected) : Except Fault OutRecord :=
  match sel.decoder with
  | .tempRain => tempRainRecord sel.pt sel.payload
  | .tempHum => tempHumRecord cfg sel.pt sel.payload

/-- `Eval` (R90) on the bytes of a frame: a record, `OK` or `ERR`. `n` is the frame's length as the intake counted
it and `bytes` what the buffer holds of it. -/
def evalFrame (cfg : Cfg) (n : Nat) (bytes : List Byte) : Except Fault OutRecord :=
  match selectDecoder cfg n bytes with
  | .error r => .ok (errorRecord r)
  | .ok sel => selectedRecord cfg sel

/-- The part of COMPLETE after the byte was taken: evaluate the frame in the buffer and end it (R83). A raise takes
the error (R143). -/
def completeFrame (s : State) : Outcome :=
  match fetchFrame s.fb s.n.toNat with
  | .error f => .fault f
  | .ok bytes =>
    match selectDecoder s.cfg s.n.toNat bytes with
    | .error r => .next (raiseError r s)
    | .ok sel =>
      match selectedRecord s.cfg sel with
      | .error f => .fault f
      | .ok o => .next (finishFrame o s)

/-- `ACCEPT` (R82). -/
def execAccept (b : Byte) (s : State) : Outcome := .next (dropValid (takeByte b s))

/-- `COMPLETE` (R83): the byte is stored and counted before the buffer is read (R51). -/
def execComplete (b : Byte) (s : State) : Outcome := completeFrame (takeByte b s)

/-- `IDLE` (R84). -/
def execIdle (s : State) : Outcome := .next (dropValid s)

end Sys2Proof.Machine
end

