-- ==== Sys2Proof/Machine/Reset.lean ====
section
/-! DEFINITION. Operation RESET (spec 70_reset_and_hazards.md R160, R161). -/

namespace Sys2Proof.Machine

/-- Latch every field of CFG from its strap, bit for bit (R24, R161). -/
def latchCfg (straps : Cfg) (s : State) : State := { s with cfg := straps }

/-- `N`, `out_valid` and all of OUT to 0 (R160). FB is not written. -/
def clearOutputs (s : State) : State := { s with n := 0, outValid := false, out := OutRecord.cleared }

/-- `RESET` (R160). -/
def execReset (straps : Cfg) (s : State) : Outcome := .next (clearOutputs (latchCfg straps s))

end Sys2Proof.Machine
end

