-- ==== Sys2Proof/Machine/Dispatch.lean ====
section
/-! DEFINITION. One arm per instruction. -/

namespace Sys2Proof.Machine

def exec (i : Instr) (s : State) : Host.Outcome State Fault Refusal :=
  match i with
  | .tempRain pt payload => Sys2Proof.Machine.execTempRain pt payload s
  | .tempHum pt payload => Sys2Proof.Machine.execTempHum pt payload s
  | .accept b => Sys2Proof.Machine.execAccept b s
  | .complete b => Sys2Proof.Machine.execComplete b s
  | .idle => Sys2Proof.Machine.execIdle s
  | .reset straps => Sys2Proof.Machine.execReset straps s

end Sys2Proof.Machine
end

