-- ==== Sys2Proof/Machine/Step.lean ====
section
/-! DEFINITION. One step: one event at one clock edge (spec 00_scope.md R5). -/

namespace Sys2Proof.Machine

/-- Sample the ports at the coming edge, and run the event they carry (R5, R27). -/
def step (s : State) : Host.Outcome State Fault Refusal :=
  exec (decodeEdge (nextEdge s)) (passEdge s)

/-- The state in which the instruction of these table bits runs at the next step: an event as the coming port sample;
a frame as all its bytes taken but the last, which comes next (log entry 11). -/
def State.withFetchWord (s : State) (nbits w : Nat) : State :=
  if nbits ≤ 16 then offerEdge (tableEdge w) s else offerFrame (tableFrame w) s

end Sys2Proof.Machine
end

