-- ==== Sys2Proof/Machine/Program.lean ====
section
/-! DEFINITION. The written notation of frames and programs (spec 30_encoding.md R73, R74) as port samples: what a
transport and an integrator drive. No step uses it; it is how a program is written down. -/

namespace Sys2Proof.Machine

/-- Event `BYTE(b, last)` (R5). -/
def byteEdge (b : Byte) (last : Bool) : PortEdge :=
  ⟨(if last then 0b011#3 else 0b010#3) ++ b, Config.straps⟩

/-- Event `IDLE` (R5). -/
def idleEdge : PortEdge := ⟨0x000#11, Config.straps⟩

/-- Event `RESET` with the straps at these levels (R5). -/
def resetEdge (straps : Cfg) : PortEdge := ⟨0x400#11, straps⟩

/-- `part [b0, …]`: one `BYTE(b, 0)` for each byte (R73). -/
def partEdges (bytes : List Byte) : List PortEdge := bytes.map (byteEdge · false)

/-- `raw [b0, …]`: `BYTE(b, 0)` for each byte but the last, which is `BYTE(b, 1)` (R73). -/
def rawEdges : List Byte → List PortEdge
  | [] => []
  | [b] => [byteEdge b true]
  | b :: rest => byteEdge b false :: rawEdges rest

/-- `TH` of R74: the sign bit and bits 14:8 of the magnitude. -/
def tempHighByte (temp : Int) : Byte :=
  (if temp < 0 then 0x80#8 else 0x00#8) ||| BitVec.ofNat 8 (temp.natAbs / 256 % 128)

/-- `TL` of R74: bits 7:0 of the magnitude. -/
def tempLowByte (temp : Int) : Byte := BitVec.ofNat 8 temp.natAbs

/-- Bits 15:8 of a 16-bit value. -/
def highByte (v : Half) : Byte := v.extractLsb' 8 8

/-- Bits 7:0 of a 16-bit value. -/
def lowByte (v : Half) : Byte := v.extractLsb' 0 8

/-- `sig << 4 | batt` (R74). -/
def statusByte (batt sig : Nibble) : Byte := sig ++ batt

/-- The payload of a `tr` line (R74). -/
def trPayload (sub seq : Byte) (id : Half) (temp : Int) (rain : Half) (batt sig : Nibble) : List Byte :=
  [sub, seq, highByte id, lowByte id, tempHighByte temp, tempLowByte temp, highByte rain, lowByte rain,
    statusByte batt sig]

/-- Place the bits of a byte at a payload offset. Where fields of a `th` line share a byte their bits are joined
(DESIGN CHOICE, log entry 10). -/
def placeByte (o : Nat) (b : Byte) (p : List Byte) : List Byte := p.modify o (· ||| b)

/-- The field region of a `th` line (R74): zero but for each field at its configured offset. -/
def thRegion (cfg : Cfg) (sub seq chan : Byte) (id : Half) (temp : Int) (hum : Byte) (code : BitVec 2)
    (batt sig : Nibble) : List Byte :=
  placeByte 0 sub <| placeByte cfg.thOffSeq.toNat seq <| placeByte cfg.thOffChan.toNat chan <|
  placeByte cfg.thOffId.toNat (highByte id) <| placeByte (cfg.thOffId.toNat + 1) (lowByte id) <|
  placeByte cfg.thOffTemp.toNat (tempHighByte temp) <| placeByte (cfg.thOffTemp.toNat + 1) (tempLowByte temp) <|
  placeByte cfg.thOffHum.toNat hum <|
  placeByte cfg.thOffHumst.toNat (code.zeroExtend 8 <<< cfg.thHumstShift.toNat) <|
  placeByte cfg.thOffStatus.toNat (statusByte batt sig) <|
  List.replicate cfg.thFieldsLen.toNat 0x00#8

/-- The events a line stands for (R73, R74). -/
def lineEdges : Line → List PortEdge
  | .raw bytes => rawEdges bytes
  | .frame pt payload => rawEdges (frameBytes pt payload)
  | .tr pt sub seq id temp rain batt sig => rawEdges (frameBytes pt (trPayload sub seq id temp rain batt sig))
  | .th cfg pt sub seq chan id temp hum code batt sig marker =>
    rawEdges (frameBytes pt (thRegion cfg sub seq chan id temp hum code batt sig ++ marker))
  | .reset cfg => [resetEdge cfg]
  | .idle => [idleEdge]
  | .part bytes => partEdges bytes

/-- A program, executed top to bottom (R73). -/
def programEdges (lines : List Line) : List PortEdge := lines.flatMap lineEdges

/-- The machine about to run a program: its events come next. -/
def loadProgram (lines : List Line) (s : State) : State := { s with pending := programEdges lines }

end Sys2Proof.Machine
end

