-- ==== Sys2Proof/Safety.lean ====
section
/-! DEFINITION. What claims about the PVFD speak of: the result of a frame as a function of CFG and its bytes
(spec 00_scope.md R6), the observable of a run (70_reset_and_hazards.md R169), and the invariant of its state. -/

namespace Sys2Proof.Machine

/-- `Eval(CFG, [b0, …])` (R6, R47): the result of a frame, from the configuration and its bytes alone. -/
def evalBytes (cfg : Cfg) (bytes : List Byte) : Except Fault OutRecord := evalFrame cfg bytes.length bytes

/-- The output records at the events where `out_valid` is 1, in order, over `k` steps (R169). -/
def results : Nat → State → List OutRecord
  | 0, _ => []
  | k + 1, s =>
    match step s with
    | .next t => if t.outValid then t.out :: results k t else results k t
    | .fault _ => []
    | .refused _ => []

/-- What R169 says the results of a list of events are: one `Eval` for each completed frame, under the configuration
of the latest reset, where `got` are the bytes of the current frame so far. It knows nothing of a buffer. -/
def expectedResults (cfg : Cfg) (got : List Byte) : List Instr → List (Except Fault OutRecord)
  | [] => []
  | .accept b :: rest => expectedResults cfg (got ++ [b]) rest
  | .complete b :: rest => evalBytes cfg (got ++ [b]) :: expectedResults cfg [] rest
  | .idle :: rest => expectedResults cfg got rest
  | .reset straps :: rest => expectedResults straps [] rest
  | .tempRain _ _ :: rest => expectedResults cfg got rest
  | .tempHum _ _ :: rest => expectedResults cfg got rest

/-- The error table of R140 in the order of R142, read off a frame's bytes: each condition, and the code of the error
it names. It is written from the table alone and shares with the decoder only the marker test
`markerAccepted` (R96) and the effective calibration `thEffCal` (R121), which MarkerIsExactTail and
EffectiveCalibrationIsAsTabled fix. -/
def errorTable (cfg : Cfg) (bytes : List Byte) : List (Bool × BitVec 3) :=
  let n := bytes.length
  let pt := bytes.getD 1 0
  let payload := bytes.drop 2
  let rain := decide (pt = cfg.ptTr)
  let hum := decide (pt = cfg.ptTh) && !rain
  let shortestMarker := if 1 ≤ cfg.ms.toNat then cfg.ms.toNat else cfg.ml.toNat
  [ (decide (n < 2), 2),
    (decide ((bytes.getD 0 0).toNat ≠ n - 1), 1),
    (decide (n - 2 < 7), 2),
    (rain && decide (n - 2 < 9)
      || hum && thEffCal cfg && decide (n - 2 < cfg.thFieldsLen.toNat + shortestMarker), 2),
    (hum && !markerAccepted cfg payload (n - 2), 3),
    (!(rain && cfg.trSubtypes.getLsbD (bytes.getD 2 0).toNat
      || hum && cfg.thSubtypes.getLsbD (bytes.getD 2 0).toNat), 4),
    (hum && !thEffCal cfg, 5) ]

/-- No two fields of the Temp/Humidity table share a byte. The hardware does not ask for it (R121); the `th` notation
of R74 can place its operands independently only where it holds. -/
def thDisjoint (cfg : Cfg) : Prop :=
  [cfg.thOffSeq.toNat, cfg.thOffChan.toNat, cfg.thOffId.toNat, cfg.thOffId.toNat + 1, cfg.thOffTemp.toNat,
    cfg.thOffTemp.toNat + 1, cfg.thOffHum.toNat, cfg.thOffHumst.toNat, cfg.thOffStatus.toNat].Nodup

/-- Every byte of the current frame that the buffer has room for is in it (R25, R82). -/
def BufferHolds (s : State) : Prop := ∀ i, i < min s.n.toNat 256 → (s.fb.find i).isSome = true

/-- What R21, R22, R116, R130, R140 and R143 say of an output record, whoever wrote it. -/
structure RecordOk (cfg : Cfg) (o : OutRecord) : Prop where
  /-- Codes 6 and 7 are never produced (R140). -/
  err_le : o.outErr.toNat ≤ 5
  /-- Code 3 is never produced (R22). -/
  kind_le : o.outKind.toNat ≤ 2
  /-- An error has no reading (R143). -/
  err_kind : o.outErr ≠ 0 → o.outKind = 0
  /-- Kind NONE: all ten reading registers are 0 (R28, R143). -/
  none_zero : o.outKind = 0 → o.reading = Reading.zero
  /-- Kind TEMP_RAIN: the fields the variant lacks are 0 (R116), and the frame was in the table (R101). -/
  rain : o.outKind = 1 →
    o.reading.rdChan = 0 ∧ o.reading.rdHum = 0 ∧ o.reading.rdHumst = 0 ∧ o.outPt = cfg.ptTr ∧
      subtypeIn cfg.trSubtypes o.reading.rdSubtype = true
  /-- Kind TEMP_HUM: no rainfall (R130), the frame was in the table and the table calibrated (R101, R102). -/
  hum : o.outKind = 2 →
    o.reading.rdRain = 0 ∧ o.outPt = cfg.ptTh ∧ cfg.ptTh ≠ cfg.ptTr ∧ thEffCal cfg = true ∧
      subtypeIn cfg.thSubtypes o.reading.rdSubtype = true
  /-- The pattern 0x8000 is never produced (R66). -/
  temp_ne : o.reading.rdTemp ≠ 0x8000#16

/-- The invariant of the machine's state. -/
structure Inv (s : State) : Prop where
  /-- The buffer keeps its canonical form. -/
  canonical : s.fb.wf = true
  /-- The byte counter is 0 to 257 (R23). -/
  counter : s.n.toNat ≤ 257
  /-- The current frame's bytes are in the buffer. -/
  holds : BufferHolds s
  /-- The output record is one the rules allow. -/
  record : RecordOk s.cfg s.out
  /-- A result is flagged only between frames (R83). -/
  strobe : s.outValid = true → s.n = 0

end Sys2Proof.Machine
end

