-- ==== Sys2Proof/Certificates/Slice0/Obligations.lean ====
section
/-! DEFINITION. The statements for the provers, in terms of the model's own names. Each docstring names the rules of
spec/ it formalises; OBLIGATIONS.json lists them. -/

open Sys2Proof Sys2Proof.Machine

/-- Decode and encode agree on every well-formed instruction (R61, R69, and the encodings of opcode_table.json). -/
def Obligations.DecodeInvertsEncode : Prop :=
  ∀ (cfg : Cfg) (i : Instr), i.wellFormed cfg = true → decode cfg (encode i) = .ok i

/-- A frame that decodes is well formed under that configuration and is exactly its instruction's encoding: no byte
is dropped or altered (R60, R97). -/
def Obligations.DecodedFrameIsItsEncoding : Prop :=
  ∀ (cfg : Cfg) (bytes : List Byte) (i : Instr), decodeFrame cfg bytes = .ok i →
    i.wellFormed cfg = true ∧ encode i = .frame bytes

/-- Port words and one frame written out from opcode_table.json and vector S1 decode to what they stand for. -/
def Obligations.WordsDecodeAsWritten : Prop :=
  (∀ straps : Cfg,
    decodeEdge ⟨0b01001000010#11, straps⟩ = .accept 0x42#8 ∧
    decodeEdge ⟨0b01100001010#11, straps⟩ = .complete 0x0A#8 ∧
    decodeEdge ⟨0b00000000000#11, straps⟩ = .idle ∧
    decodeEdge ⟨0b00111111111#11, straps⟩ = .idle ∧
    decodeEdge ⟨0b10000000000#11, straps⟩ = .reset straps ∧
    decodeEdge ⟨0b11111111111#11, straps⟩ = .reset straps) ∧
  ∀ cfg : Cfg, cfg.ptTr = 0x4F#8 → cfg.trSubtypes.getLsbD 1 = true →
    decodeFrame cfg [0x0A#8, 0x4F#8, 0x01#8, 0x01#8, 0xDE#8, 0xAD#8, 0x01#8, 0x4A#8, 0x02#8, 0xEE#8, 0x42#8] =
      .ok (.tempRain 0x4F#8 [0x01#8, 0x01#8, 0xDE#8, 0xAD#8, 0x01#8, 0x4A#8, 0x02#8, 0xEE#8, 0x42#8])

/-- A step runs the instruction that the coming port sample decodes to, on the state past that sample (R5). -/
def Obligations.StepRunsDecodedEvent : Prop :=
  ∀ (cfg : Cfg) (s : State) (e : PortEdge) (rest : List PortEdge) (i : Instr),
    s.pending = e :: rest → decode cfg (.edge e) = .ok i → i.wellFormed cfg = true →
      step s = exec i { s with pending := rest }

/-- A step whose event completes a frame that decodes runs the frame's instruction: its effect, then the strobe and
the counter as R83 has them. The bytes are those the buffer holds once the last was stored (R51). -/
def Obligations.StepRunsDecodedFrame : Prop :=
  ∀ (s : State) (e : PortEdge) (rest : List PortEdge) (b : Byte) (bytes : List Byte) (i : Instr),
    s.pending = e :: rest → decodeEdge e = .complete b → s.n.toNat ≤ 255 →
    fetchFrame (takeByte b s).fb (s.n.toNat + 1) = .ok bytes → decodeFrame s.cfg bytes = .ok i →
      ∃ t, exec i (takeByte b { s with pending := rest }) = .next t ∧
        step s = .next { t with outValid := true, n := 0 }

/-- A step whose event completes a frame that the decoder rejects writes the error of that rejection (R83, R143). -/
def Obligations.StepRaisesRejectedFrame : Prop :=
  ∀ (s : State) (e : PortEdge) (rest : List PortEdge) (b : Byte) (bytes : List Byte) (r : Reject),
    s.pending = e :: rest → decodeEdge e = .complete b → s.n.toNat ≤ 255 →
    fetchFrame (takeByte b s).fb (s.n.toNat + 1) = .ok bytes → decodeFrame s.cfg bytes = .error r →
      ∃ t, step s = .next t ∧ t.out = errorRecord r ∧ t.outValid = true ∧ t.n = 0 ∧ t.cfg = s.cfg ∧
        t.fb = (takeByte b s).fb ∧ t.pending = rest

/-- ACCEPT, whole (R82): the byte stored while there is room, the counter, the strobe, and nothing else. -/
def Obligations.AcceptStoresAndCounts : Prop :=
  ∀ (b : Byte) (s : State),
    (∃ t, exec (.accept b) s = .next t ∧ t.n.toNat = min (s.n.toNat + 1) 257 ∧ t.outValid = false ∧
      (s.n.toNat ≤ 255 → t.fb.find s.n.toNat = some b) ∧
      (∀ i, i ≠ s.n.toNat ∨ 255 < s.n.toNat → t.fb.find i = s.fb.find i) ∧
      t.out = s.out ∧ t.cfg = s.cfg ∧ t.pending = s.pending) ∧
    ∀ e : PortEdge, e.word.getLsbD 10 = false → e.word.getLsbD 9 = true → e.word.getLsbD 8 = false →
      e.word.extractLsb' 0 8 = b → decodeEdge e = .accept b

/-- COMPLETE on a frame of at most 256 bytes (R83): the last byte is stored, the record is `Eval` of the frame's
bytes, the strobe is set, the counter returns to 0, and nothing else changes. -/
def Obligations.CompleteWritesEval : Prop :=
  ∀ (s : State) (b : Byte) (before : List Byte),
    s.n.toNat = before.length → before.length ≤ 255 →
    (∀ i, i < before.length → s.fb.find i = some (before.getD i 0)) →
      ∃ t, exec (.complete b) s = .next t ∧ evalBytes s.cfg (before ++ [b]) = .ok t.out ∧
        t.outValid = true ∧ t.n = 0 ∧ t.fb.find before.length = some b ∧
        (∀ i, i ≠ before.length → t.fb.find i = s.fb.find i) ∧ t.cfg = s.cfg ∧ t.pending = s.pending

/-- IDLE, whole (R84): the strobe falls and nothing else changes, whatever the ignored bits hold. -/
def Obligations.IdleOnlyDropsStrobe : Prop :=
  (∀ s : State, exec .idle s = .next { s with outValid := false }) ∧
    ∀ e : PortEdge, e.word.getLsbD 10 = false → e.word.getLsbD 9 = false → decodeEdge e = .idle

/-- RESET, whole (R160): CFG from the straps, the counter and all of OUT 0, the buffer not written; `rst` wins. -/
def Obligations.ResetLatchesAndClears : Prop :=
  (∀ (straps : Cfg) (s : State),
    exec (.reset straps) s = .next
      { cfg := straps, fb := s.fb, n := 0, outValid := false, pending := s.pending
        out :=
          { outErr := 0, outKind := 0, outPt := 0
            reading :=
              { rdSubtype := 0, rdSeq := 0, rdId := 0, rdTemp := 0, rdRain := 0, rdBatt := 0, rdSig := 0,
                rdChan := 0, rdHum := 0, rdHumst := 0 } } }) ∧
    ∀ e : PortEdge, e.word.getLsbD 10 = true → decodeEdge e = .reset e.straps

/-- TEMP_RAIN's result (R111, R113, R115, R116, the record of R110 but for the temperature and the nibbles), and its
frame: only OUT less the strobe is written. That TEMP_RAIN leaves `out_valid` and `N` to the COMPLETE around it is the
model's reading (log entry 6), and the samples to come are the model's own field (log entry 1). -/
def Obligations.TempRainWritesFields : Prop :=
  ∀ (pt : Byte) (p : List Byte) (s : State), 9 ≤ p.length →
    ∃ t, exec (.tempRain pt p) s = .next t ∧
      t.out.outErr = 0 ∧ t.out.outKind = 1 ∧ t.out.outPt = pt ∧
      t.out.reading.rdSubtype = p.getD 0 0 ∧ t.out.reading.rdSeq = p.getD 1 0 ∧
      t.out.reading.rdId.toNat = (p.getD 2 0).toNat * 256 + (p.getD 3 0).toNat ∧
      t.out.reading.rdRain.toNat = (p.getD 6 0).toNat * 256 + (p.getD 7 0).toNat ∧
      t.out.reading.rdChan = 0 ∧ t.out.reading.rdHum = 0 ∧ t.out.reading.rdHumst = 0 ∧
      t.cfg = s.cfg ∧ t.fb = s.fb ∧ t.n = s.n ∧ t.outValid = s.outValid ∧ t.pending = s.pending

/-- The Temp/Rain temperature (R112): the signed value is the 15-bit magnitude, negated when bit 7 of the high byte is
set; negative zero is 0. -/
def Obligations.TempRainTemperature : Prop :=
  ∀ (pt : Byte) (p : List Byte) (s : State), 9 ≤ p.length →
    ∃ t, exec (.tempRain pt p) s = .next t ∧
      t.out.reading.rdTemp.toInt.natAbs = (p.getD 4 0).toNat % 128 * 256 + (p.getD 5 0).toNat ∧
      (128 ≤ (p.getD 4 0).toNat → t.out.reading.rdTemp.toInt ≤ 0) ∧
      ((p.getD 4 0).toNat < 128 → 0 ≤ t.out.reading.rdTemp.toInt) ∧
      -32767 ≤ t.out.reading.rdTemp.toInt ∧ t.out.reading.rdTemp.toInt ≤ 32767

/-- The status byte's nibbles in both families (R67, R114, R129): battery low, signal high, and together the byte. -/
def Obligations.NibblesRebuildStatusByte : Prop :=
  (∀ (pt : Byte) (p : List Byte) (s : State), 9 ≤ p.length →
    ∃ t, exec (.tempRain pt p) s = .next t ∧
      t.out.reading.rdBatt.zeroExtend 8 = p.getD 8 0 &&& 0x0F#8 ∧
      t.out.reading.rdSig.zeroExtend 8 = p.getD 8 0 >>> 4 &&& 0x0F#8 ∧
      t.out.reading.rdBatt.zeroExtend 8 ||| t.out.reading.rdSig.zeroExtend 8 <<< 4 = p.getD 8 0) ∧
  ∀ (pt : Byte) (p : List Byte) (s : State), thCfgOk s.cfg = true → s.cfg.thFieldsLen.toNat ≤ p.length →
    ∃ t, exec (.tempHum pt p) s = .next t ∧
      t.out.reading.rdBatt.zeroExtend 8 = p.getD s.cfg.thOffStatus.toNat 0 &&& 0x0F#8 ∧
      t.out.reading.rdSig.zeroExtend 8 = p.getD s.cfg.thOffStatus.toNat 0 >>> 4 &&& 0x0F#8 ∧
      t.out.reading.rdBatt.zeroExtend 8 ||| t.out.reading.rdSig.zeroExtend 8 <<< 4 =
        p.getD s.cfg.thOffStatus.toNat 0

/-- TEMP_RAIN is total (R117): every frame with a right length byte, the family's packet type, a listed subtype and
nine payload bytes or more decodes without an error, in range. -/
def Obligations.TempRainDecodesEveryPayload : Prop :=
  ∀ (cfg : Cfg) (l st : Byte) (fields : List Byte),
    l.toNat = 2 + fields.length → 8 ≤ fields.length → cfg.trSubtypes.getLsbD st.toNat = true →
      ∃ o, evalBytes cfg (l :: cfg.ptTr :: st :: fields) = .ok o ∧ o.outErr = 0 ∧ o.outKind = 1 ∧
        o.reading.rdTemp ≠ 0x8000#16 ∧ o.reading.rdBatt.toNat ≤ 15 ∧ o.reading.rdSig.toNat ≤ 15

/-- Payload bytes from offset 9 on change nothing (R118): not what TEMP_RAIN does, nor what its frame gives. -/
def Obligations.TempRainIgnoresTail : Prop :=
  ∀ (cfg : Cfg) (pt : Byte) (p tail : List Byte) (s : State), 9 ≤ p.length → p.length + tail.length ≤ 254 →
    exec (.tempRain pt (p ++ tail)) s = exec (.tempRain pt p) s ∧
      evalBytes cfg (frameBytes cfg.ptTr (p ++ tail)) = evalBytes cfg (frameBytes cfg.ptTr p)

/-- TEMP_HUM's result but for temperature and nibbles (R122 to R125, R127, R128, R130), under every well-formed offset
table (the record of R120 but for temperature and nibbles), and its frame. Every byte passes through unchecked. That
TEMP_HUM leaves `out_valid` and `N` to the COMPLETE around it is the model's reading (log entry 6), and the samples to
come are the model's own field (log entry 1). -/
def Obligations.TempHumWritesFields : Prop :=
  ∀ (pt : Byte) (p : List Byte) (s : State), thCfgOk s.cfg = true → s.cfg.thFieldsLen.toNat ≤ p.length →
    ∃ t, exec (.tempHum pt p) s = .next t ∧
      t.out.outErr = 0 ∧ t.out.outKind = 2 ∧ t.out.outPt = pt ∧
      t.out.reading.rdSubtype = p.getD 0 0 ∧
      t.out.reading.rdSeq = p.getD s.cfg.thOffSeq.toNat 0 ∧
      t.out.reading.rdChan = p.getD s.cfg.thOffChan.toNat 0 ∧
      t.out.reading.rdId.toNat =
        (p.getD s.cfg.thOffId.toNat 0).toNat * 256 + (p.getD (s.cfg.thOffId.toNat + 1) 0).toNat ∧
      t.out.reading.rdHum = p.getD s.cfg.thOffHum.toNat 0 ∧
      (∃ code : BitVec 2,
        code.toNat = (p.getD s.cfg.thOffHumst.toNat 0).toNat / 2 ^ s.cfg.thHumstShift.toNat % 4 ∧
        t.out.reading.rdHumst = s.cfg.thHumstMap[code.toNat]) ∧
      t.out.reading.rdRain = 0 ∧
      t.cfg = s.cfg ∧ t.fb = s.fb ∧ t.n = s.n ∧ t.outValid = s.outValid ∧ t.pending = s.pending

/-- The Temp/Humidity temperature (R126): the same function of the two bytes at the configured offset. -/
def Obligations.TempHumTemperature : Prop :=
  ∀ (pt : Byte) (p : List Byte) (s : State), thCfgOk s.cfg = true → s.cfg.thFieldsLen.toNat ≤ p.length →
    ∃ t, exec (.tempHum pt p) s = .next t ∧
      t.out.reading.rdTemp.toInt.natAbs =
        (p.getD s.cfg.thOffTemp.toNat 0).toNat % 128 * 256 + (p.getD (s.cfg.thOffTemp.toNat + 1) 0).toNat ∧
      (128 ≤ (p.getD s.cfg.thOffTemp.toNat 0).toNat → t.out.reading.rdTemp.toInt ≤ 0) ∧
      ((p.getD s.cfg.thOffTemp.toNat 0).toNat < 128 → 0 ≤ t.out.reading.rdTemp.toInt)

/-- Every frame instruction that the decoder answers runs (R117, R131, R46). That it writes OUT less the strobe only,
and leaves the strobe and `N` to the COMPLETE around it, is the model's reading (log entry 6). -/
def Obligations.DecodedInstructionCompletes : Prop :=
  ∀ (s : State) (bytes : List Byte) (i : Instr), decodeFrame s.cfg bytes = .ok i →
    ∃ o, exec i s = .next { s with out := o } ∧ o.outErr = 0 ∧ o.outPt = bytes.getD 1 0 ∧
      o.reading.rdSubtype = bytes.getD 2 0

/-- A frame instruction given a payload without a byte it names stops on that byte (the model's choice, log entry 7).
No frame that passes the stages of R90 gives one (R46, and DecodedInstructionCompletes above). -/
def Obligations.MissingPayloadByteFaults : Prop :=
  (∀ (pt : Byte) (p : List Byte) (s : State), p.length < 9 →
    exec (.tempRain pt p) s = .fault (.beyondPayload p.length)) ∧
  ∀ (pt : Byte) (p : List Byte) (s : State) (k : Nat), p.length ≤ k →
    k ∈ [0, s.cfg.thOffSeq.toNat, s.cfg.thOffChan.toNat, s.cfg.thOffId.toNat, s.cfg.thOffId.toNat + 1,
      s.cfg.thOffTemp.toNat, s.cfg.thOffTemp.toNat + 1, s.cfg.thOffHum.toNat, s.cfg.thOffHumst.toNat,
      s.cfg.thOffStatus.toNat] →
      ∃ j, p.length ≤ j ∧ exec (.tempHum pt p) s = .fault (.beyondPayload j)

/-- Effective calibration (R121): marked calibrated, every offset inside the field region, the shift at most 6. -/
def Obligations.EffectiveCalibrationIsAsTabled : Prop :=
  ∀ cfg : Cfg, thEffCal cfg = true ↔
    cfg.thCal = true ∧ 1 ≤ cfg.thFieldsLen.toNat ∧
      (∀ o, o = cfg.thOffSeq ∨ o = cfg.thOffChan ∨ o = cfg.thOffHum ∨ o = cfg.thOffHumst ∨ o = cfg.thOffStatus →
        1 ≤ o.toNat ∧ o.toNat < cfg.thFieldsLen.toNat) ∧
      (∀ o, o = cfg.thOffId ∨ o = cfg.thOffTemp → 1 ≤ o.toNat ∧ o.toNat + 1 < cfg.thFieldsLen.toNat) ∧
      cfg.thHumstShift.toNat ≤ 6

/-- With no effective calibration no frame yields a Temp/Humidity reading (R121, R132). -/
def Obligations.UncalibratedNeverReads : Prop :=
  ∀ (cfg : Cfg) (bytes : List Byte) (o : OutRecord),
    (cfg.thCal = false ∨ thCfgOk cfg = false) → evalBytes cfg bytes = .ok o → o.outKind ≠ 2

/-- GATE_TH (R102): a Temp/Humidity frame that passed validation and whose subtype is listed executes when the table
is effectively calibrated and reports UnsupportedFamily otherwise. -/
def Obligations.GateDecidesOnCalibration : Prop :=
  ∀ (cfg : Cfg) (st : Byte) (fields : List Byte),
    cfg.ptTh ≠ cfg.ptTr → 6 ≤ fields.length → fields.length ≤ 253 →
    (thEffCal cfg = true → cfg.thFieldsLen.toNat + mkMin cfg ≤ 1 + fields.length) →
    markerAccepted cfg (st :: fields) (1 + fields.length) = true → cfg.thSubtypes.getLsbD st.toNat = true →
      ∃ o, evalBytes cfg (frameBytes cfg.ptTh (st :: fields)) = .ok o ∧ o.outPt = cfg.ptTh ∧
        (thEffCal cfg = true → o.outErr = 0 ∧ o.outKind = 2) ∧
        (thEffCal cfg = false → o.outErr = 5 ∧ o.outKind = 0 ∧ o.reading = Reading.zero)

/-- The guarantees of R98, (a) to (e). The last: two frames that differ in the subtype alone are rejected for their
structure (codes 1 to 3) alike. -/
def Obligations.ValidationGuarantees : Prop :=
  ∀ (cfg : Cfg) (l pt : Byte) (p : List Byte),
    (l.toNat ≠ 1 + p.length → evalBytes cfg (l :: pt :: p) = .ok (errorRecord ⟨.lengthMismatch, pt⟩)) ∧
    (l.toNat = 1 + p.length → p.length < 7 → evalBytes cfg (l :: pt :: p) = .ok (errorRecord ⟨.tooShort, pt⟩)) ∧
    (l.toNat = 1 + p.length → pt = cfg.ptTr →
      (p.length < 9 → evalBytes cfg (l :: pt :: p) = .ok (errorRecord ⟨.tooShort, pt⟩)) ∧
      (9 ≤ p.length → ∃ o, evalBytes cfg (l :: pt :: p) = .ok o ∧ o.outErr ≠ 1 ∧ o.outErr ≠ 2 ∧ o.outErr ≠ 3)) ∧
    (pt ≠ cfg.ptTh ∨ cfg.ptTr = cfg.ptTh → ∃ o, evalBytes cfg (l :: pt :: p) = .ok o ∧ o.outErr ≠ 3) ∧
    ∀ (st st' : Byte) (fields : List Byte) (o : OutRecord), p = st :: fields →
      evalBytes cfg (l :: pt :: p) = .ok o → o.outErr = 1 ∨ o.outErr = 2 ∨ o.outErr = 3 →
        evalBytes cfg (l :: pt :: st' :: fields) = .ok o

/-- One frame reports one error, the first of R142 whose condition of R140 holds, with the code of R140; where none
holds it decodes, to the kind of its family. -/
def Obligations.FirstErrorIsReported : Prop :=
  ∀ (cfg : Cfg) (bytes : List Byte),
    ∃ o, evalBytes cfg bytes = .ok o ∧ o.outPt = bytes.getD 1 0 ∧
      match (errorTable cfg bytes).find? (·.1) with
      | some (_, code) => o.outErr = code ∧ o.outKind = 0 ∧ o.reading = Reading.zero
      | none => o.outErr = 0 ∧ o.outKind = if bytes.getD 1 0 = cfg.ptTr then 1 else 2

/-- The marker test (R96). A variant matches exactly when the last `n` payload bytes are its first `n`, byte for byte,
and lie after the fields; a length of 0 never matches. A payload is accepted exactly when the full marker at length `ML`
or the shortened one at length `MS` matches, so either suffices. That a length beyond the strapped bytes matches nothing
is the model's choice (log entry 5). -/
def Obligations.MarkerIsExactTail : Prop :=
  ∀ (cfg : Cfg) (p : List Byte),
    let isTail (v : List Byte) (n : Nat) : Prop :=
      1 ≤ n ∧ (if thEffCal cfg = true then cfg.thFieldsLen.toNat else 1) + n ≤ p.length ∧
        ∀ j, j < n → p[p.length - n + j]? = v[j]?
    (∀ (v : List Byte) (n : Nat), markerMatches cfg p p.length v n = true ↔ isTail v n) ∧
    (markerAccepted cfg p p.length = true ↔ isTail cfg.mkFull cfg.ml.toNat ∨ isTail cfg.mkShort cfg.ms.toNat)

/-- Equal packet types resolve to Temp/Rain (R94): Temp/Humidity is unreachable, its errors too. -/
def Obligations.EqualPacketTypesAreRain : Prop :=
  ∀ (cfg : Cfg) (bytes : List Byte) (o : OutRecord), cfg.ptTr = cfg.ptTh → evalBytes cfg bytes = .ok o →
    o.outKind ≠ 2 ∧ o.outErr ≠ 3 ∧ o.outErr ≠ 5

/-- COMPLETE between frames is a one-byte frame (R91): TooShort, packet type 0x00, whatever the buffer holds. -/
def Obligations.OneByteFrameIsTooShort : Prop :=
  ∀ (s : State) (b : Byte), s.n = 0 →
    ∃ t, exec (.complete b) s = .next t ∧ t.out.outErr = 2 ∧ t.out.outKind = 0 ∧ t.out.outPt = 0 ∧
      t.out.reading = Reading.zero ∧ t.outValid = true ∧ t.n = 0 ∧ t.cfg = s.cfg ∧ t.pending = s.pending ∧
      t.fb.find 0 = some b ∧ ∀ i, i ≠ 0 → t.fb.find i = s.fb.find i

/-- Oversize frames (R166): past the 256th byte nothing is stored and no error is reported until the last byte, which
reports LengthMismatch. -/
def Obligations.OversizeFrameIsMismatch : Prop :=
  ∀ (s : State) (b : Byte), 256 ≤ s.n.toNat → (∀ i, i < 256 → (s.fb.find i).isSome = true) →
    exec (.accept b) s = .next { s with n := 257, outValid := false } ∧
    ∃ pt, s.fb.find 1 = some pt ∧
      exec (.complete b) s = .next
        { s with n := 0, outValid := true, out := { outErr := 1, outKind := 0, outPt := pt, reading := Reading.zero } }

/-- Taking an error (R143): the code, kind NONE, the packet type (0x00 where the frame has none), all reading registers
0, the strobe and the counter, together; nothing else is saved or changed. -/
def Obligations.ErrorEntryWritesRecord : Prop :=
  ∀ (s : State) (b : Byte) (bytes : List Byte) (r : Reject),
    fetchFrame (takeByte b s).fb (takeByte b s).n.toNat = .ok bytes →
    selectDecoder s.cfg (takeByte b s).n.toNat bytes = .error r →
      r.pt = bytes.getD 1 0 ∧ exec (.complete b) s = .next
        { cfg := s.cfg, fb := (takeByte b s).fb, n := 0, outValid := true, pending := s.pending
          out :=
            { outKind := 0, outPt := r.pt
              outErr :=
                match r.kind with
                | .lengthMismatch => 1
                | .tooShort => 2
                | .badMarker => 3
                | .unknownFamily => 4
                | .unsupportedFamily => 5
              reading :=
                { rdSubtype := 0, rdSeq := 0, rdId := 0, rdTemp := 0, rdRain := 0, rdBatt := 0, rdSig := 0,
                  rdChan := 0, rdHum := 0, rdHumst := 0 } } }

/-- Purity of the hardware form (R47): from any state between frames, the events of a frame with any idle events among
them end with `Eval` of the frame's bytes in OUT, flagged, and the counter at 0; the start's FB and OUT play no part.
The events stand in the model's own list of samples, and that just these have been consumed, `t.pending = rest`, is the
model's clause (log entry 1), not R47's. -/
def Obligations.HardwareComputesEval : Prop :=
  ∀ (s : State) (lead rest : List PortEdge) (e : PortEdge) (first : List Byte) (b : Byte),
    s.n = 0 → s.pending = lead ++ e :: rest →
    (lead.map decodeEdge).filter (· ≠ Instr.idle) = first.map Instr.accept → decodeEdge e = .complete b →
      ∃ t, core.run (lead.length + 1) s = .next t ∧ evalBytes s.cfg (first ++ [b]) = .ok t.out ∧
        t.outValid = true ∧ t.n = 0 ∧ t.cfg = s.cfg ∧ t.pending = rest

/-- The observable of any run that starts between frames (R169): one `Eval` for each completed frame, in order, under
the configuration of the latest reset, whatever frames fail, idle, overflow or are cut short by a reset. -/
def Obligations.RunResultsAreEvals : Prop :=
  ∀ s : State, s.n = 0 →
    (results s.pending.length s).map Except.ok = expectedResults s.cfg [] (s.pending.map decodeEdge)

/-- Bytes at or above the frame's length never leak into a result (R26, R46): two machines that agree on CFG, the
counter and the current frame's bytes complete alike. -/
def Obligations.StaleBytesNeverLeak : Prop :=
  ∀ (s s' : State) (b : Byte), s.cfg = s'.cfg → s.n = s'.n →
    (∀ i, i < min s.n.toNat 256 → s.fb.find i = s'.fb.find i) →
      (∀ t, exec (.complete b) s = .next t →
        ∃ t', exec (.complete b) s' = .next t' ∧ t'.out = t.out ∧ t'.outValid = t.outValid ∧ t'.n = t.n) ∧
      ∀ f, exec (.complete b) s = .fault f → exec (.complete b) s' = .fault f

/-- The step relation is total, with no fault and no stuck state (R5): from any state whose current frame is in the
buffer, every run of any length goes through. -/
def Obligations.RunsNeverStop : Prop :=
  ∀ (k : Nat) (s : State), BufferHolds s → ∃ t, core.run k s = .next t ∧ BufferHolds t

/-- Every step keeps the invariant of Safety.lean: the buffer canonical and holding the frame, the counter in range,
the output record one that R21, R22, R66, R116, R130, R140 and R143 allow, the strobe only between frames. -/
def Obligations.StepKeepsInvariant : Prop :=
  ∀ s t : State, Inv s → step s = .next t → Inv t

/-- The machine right after reset has the invariant. -/
def Obligations.ResetHasInvariant : Prop := Inv State.reset

/-- What reset leaves (R28), and that no buffer byte holds a value then (the model's choice, log entry 4). -/
def Obligations.ResetStateAsListed : Prop :=
  State.reset.n = 0 ∧ State.reset.outValid = false ∧ State.reset.out.outErr = 0 ∧ State.reset.out.outKind = 0 ∧
    State.reset.out.outPt = 0 ∧ State.reset.out.reading = Reading.zero ∧ State.reset.pending = [] ∧
    ∀ i, State.reset.fb.find i = none

/-- Only a RESET event changes the configuration, and it latches every strap (R24, R103, R161). -/
def Obligations.OnlyResetChangesConfig : Prop :=
  ∀ s t : State, step s = .next t →
    t.cfg = match decodeEdge (nextEdge s) with
      | .reset straps => straps
      | _ => s.cfg

/-- Write rights, complete (R29): what each event writes, and that it writes nothing else. The passing of the port
sample, `t.pending = s.pending.tail`, is the model's clause (log entry 1), not R29's. -/
def Obligations.EventsWriteOnlyTheirState : Prop :=
  ∀ s t : State, step s = .next t →
    t.pending = s.pending.tail ∧
    match decodeEdge (nextEdge s) with
    | .reset straps => t.cfg = straps ∧ t.n = 0 ∧ t.outValid = false ∧ t.out = OutRecord.cleared ∧ t.fb = s.fb
    | .accept b =>
      t.n.toNat = min (s.n.toNat + 1) 257 ∧ t.outValid = false ∧
        (s.n.toNat ≤ 255 → t.fb.find s.n.toNat = some b) ∧
        (∀ i, i ≠ s.n.toNat ∨ 255 < s.n.toNat → t.fb.find i = s.fb.find i) ∧ t.cfg = s.cfg ∧ t.out = s.out
    | .complete b =>
      t.n = 0 ∧ t.outValid = true ∧ (s.n.toNat ≤ 255 → t.fb.find s.n.toNat = some b) ∧
        (∀ i, i ≠ s.n.toNat ∨ 255 < s.n.toNat → t.fb.find i = s.fb.find i) ∧ t.cfg = s.cfg
    | .idle => t.outValid = false ∧ t.cfg = s.cfg ∧ t.out = s.out ∧ t.fb = s.fb ∧ t.n = s.n
    | .tempRain _ _ => False
    | .tempHum _ _ => False

/-- `out_valid` after an event is 1 exactly when the event completed a frame (R22, R163). -/
def Obligations.StrobeMarksCompletion : Prop :=
  ∀ s t : State, step s = .next t → (t.outValid = true ↔ ∃ b, decodeEdge (nextEdge s) = .complete b)

/-- The output record is a copy (R30, R85, R163): any run of bytes accepted and idle events leaves it as it was. -/
def Obligations.RecordHeldUntilCompletion : Prop :=
  ∀ (k : Nat) (s : State),
    (∀ e, e ∈ s.pending.take k → decodeEdge e = .idle ∨ ∃ b, decodeEdge e = .accept b) →
      ∃ t, core.run k s = .next t ∧ t.out = s.out ∧ t.cfg = s.cfg

/-- The byte counter (R23): up by one for an accepted byte until 257, where it stays; 0 after a completion or a reset;
unmoved by an idle event. -/
def Obligations.CounterFollowsEvents : Prop :=
  ∀ s t : State, s.n.toNat ≤ 257 → step s = .next t →
    match decodeEdge (nextEdge s) with
    | .accept _ => if s.n.toNat = 257 then t.n.toNat = 257 else t.n.toNat = s.n.toNat + 1
    | .complete _ => t.n = 0
    | .reset _ => t.n = 0
    | .idle => t.n = s.n
    | .tempRain _ _ => False
    | .tempHum _ _ => False

/-- A payload byte is the buffer byte two places on (R40): what a fetch of a frame hands to the decoder. -/
def Obligations.PayloadIsTheBuffer : Prop :=
  ∀ (m : Memory) (n : Nat) (bytes : List Byte) (k : Nat), fetchFrame m n = .ok bytes → k + 2 < min n 256 →
    memRead m (k + 2) = .ok ((bytes.drop 2).getD k 0)

/-- A read of the buffer answers what was last written at that index, and a write leaves every other index as it was;
an index of 256 or more does not exist (R11, R40). -/
def Obligations.BufferReadAfterWrite : Prop :=
  (∀ (m : Memory) (i k : Nat) (b : Byte), i < 256 →
    memRead (m.put i b) i = .ok b ∧ (k ≠ i → memRead (m.put i b) k = memRead m k)) ∧
    ∀ (m : Memory) (k : Nat), 256 ≤ k → memRead m k = .error (.noSuchIndex k)

/-- The subtype affects nothing of a reading but `rd_subtype` (R104), in both families. -/
def Obligations.SubtypeOnlyNamesItself : Prop :=
  (∀ (pt st st' : Byte) (fields : List Byte) (s : State), 8 ≤ fields.length →
    ∃ t, exec (.tempRain pt (st :: fields)) s = .next t ∧
      exec (.tempRain pt (st' :: fields)) s =
        .next { t with out := { t.out with reading := { t.out.reading with rdSubtype := st' } } }) ∧
  ∀ (pt st st' : Byte) (fields : List Byte) (s : State), thCfgOk s.cfg = true →
    s.cfg.thFieldsLen.toNat ≤ 1 + fields.length →
      ∃ t, exec (.tempHum pt (st :: fields)) s = .next t ∧
        exec (.tempHum pt (st' :: fields)) s =
          .next { t with out := { t.out with reading := { t.out.reading with rdSubtype := st' } } }

/-- The `tr` notation (R74) is the inverse of TEMP_RAIN (R110): its frame decodes, and every operand comes back in its
register, the temperature as the signed number. -/
def Obligations.TrLineRoundTrip : Prop :=
  ∀ (cfg : Cfg) (sub seq : Byte) (id : Half) (temp : Int) (rain : Half) (batt sig : Nibble) (s : State),
    temp.natAbs ≤ 32767 → cfg.trSubtypes.getLsbD sub.toNat = true →
      decodeFrame cfg (frameBytes cfg.ptTr (trPayload sub seq id temp rain batt sig)) =
          .ok (.tempRain cfg.ptTr (trPayload sub seq id temp rain batt sig)) ∧
        ∃ t, exec (.tempRain cfg.ptTr (trPayload sub seq id temp rain batt sig)) s = .next t ∧
          t.out.reading.rdSubtype = sub ∧ t.out.reading.rdSeq = seq ∧ t.out.reading.rdId = id ∧
          t.out.reading.rdTemp.toInt = temp ∧ t.out.reading.rdRain = rain ∧ t.out.reading.rdBatt = batt ∧
          t.out.reading.rdSig = sig

/-- The `th` notation (R74) is the inverse of TEMP_HUM (R120) where no two configured fields share a byte: every operand
comes back in its register, the humidity code through the map. -/
def Obligations.ThLineRoundTrip : Prop :=
  ∀ (pt sub seq chan : Byte) (id : Half) (temp : Int) (hum : Byte) (code : BitVec 2) (batt sig : Nibble)
    (marker : List Byte) (s : State),
    temp.natAbs ≤ 32767 → thCfgOk s.cfg = true → thDisjoint s.cfg →
      ∃ t, exec (.tempHum pt (thRegion s.cfg sub seq chan id temp hum code batt sig ++ marker)) s = .next t ∧
        t.out.reading.rdSubtype = sub ∧ t.out.reading.rdSeq = seq ∧ t.out.reading.rdChan = chan ∧
        t.out.reading.rdId = id ∧ t.out.reading.rdTemp.toInt = temp ∧ t.out.reading.rdHum = hum ∧
        t.out.reading.rdHumst = s.cfg.thHumstMap[code.toNat] ∧ t.out.reading.rdBatt = batt ∧
        t.out.reading.rdSig = sig
end

