-- ==== Sys2Proof/Laws/State.lean ====
section
/-! SUPPORT. One lemma per field for each update of State, so that no proof unfolds a record update. -/

namespace Sys2Proof.Machine

@[simp] theorem storeByte_cfg (b : Byte) (s : State) : (storeByte b s).cfg = s.cfg := rfl
@[simp] theorem storeByte_fb (b : Byte) (s : State) : (storeByte b s).fb = if s.n.toNat ≤ 255 then s.fb.put s.n.toNat b else s.fb := rfl
@[simp] theorem storeByte_n (b : Byte) (s : State) : (storeByte b s).n = s.n := rfl
@[simp] theorem storeByte_outValid (b : Byte) (s : State) : (storeByte b s).outValid = s.outValid := rfl
@[simp] theorem storeByte_out (b : Byte) (s : State) : (storeByte b s).out = s.out := rfl
@[simp] theorem storeByte_pending (b : Byte) (s : State) : (storeByte b s).pending = s.pending := rfl

@[simp] theorem countByte_cfg (s : State) : (countByte s).cfg = s.cfg := rfl
@[simp] theorem countByte_fb (s : State) : (countByte s).fb = s.fb := rfl
@[simp] theorem countByte_n (s : State) : (countByte s).n = BitVec.ofNat 9 (min (s.n.toNat + 1) nSat) := rfl
@[simp] theorem countByte_outValid (s : State) : (countByte s).outValid = s.outValid := rfl
@[simp] theorem countByte_out (s : State) : (countByte s).out = s.out := rfl
@[simp] theorem countByte_pending (s : State) : (countByte s).pending = s.pending := rfl

@[simp] theorem takeByte_cfg (b : Byte) (s : State) : (takeByte b s).cfg = s.cfg := rfl
@[simp] theorem takeByte_fb (b : Byte) (s : State) : (takeByte b s).fb = if s.n.toNat ≤ 255 then s.fb.put s.n.toNat b else s.fb := rfl
@[simp] theorem takeByte_n (b : Byte) (s : State) : (takeByte b s).n = BitVec.ofNat 9 (min (s.n.toNat + 1) nSat) := rfl
@[simp] theorem takeByte_outValid (b : Byte) (s : State) : (takeByte b s).outValid = s.outValid := rfl
@[simp] theorem takeByte_out (b : Byte) (s : State) : (takeByte b s).out = s.out := rfl
@[simp] theorem takeByte_pending (b : Byte) (s : State) : (takeByte b s).pending = s.pending := rfl

@[simp] theorem dropValid_cfg (s : State) : (dropValid s).cfg = s.cfg := rfl
@[simp] theorem dropValid_fb (s : State) : (dropValid s).fb = s.fb := rfl
@[simp] theorem dropValid_n (s : State) : (dropValid s).n = s.n := rfl
@[simp] theorem dropValid_outValid (s : State) : (dropValid s).outValid = false := rfl
@[simp] theorem dropValid_out (s : State) : (dropValid s).out = s.out := rfl
@[simp] theorem dropValid_pending (s : State) : (dropValid s).pending = s.pending := rfl

@[simp] theorem writeOut_cfg (o : OutRecord) (s : State) : (writeOut o s).cfg = s.cfg := rfl
@[simp] theorem writeOut_fb (o : OutRecord) (s : State) : (writeOut o s).fb = s.fb := rfl
@[simp] theorem writeOut_n (o : OutRecord) (s : State) : (writeOut o s).n = s.n := rfl
@[simp] theorem writeOut_outValid (o : OutRecord) (s : State) : (writeOut o s).outValid = s.outValid := rfl
@[simp] theorem writeOut_out (o : OutRecord) (s : State) : (writeOut o s).out = o := rfl
@[simp] theorem writeOut_pending (o : OutRecord) (s : State) : (writeOut o s).pending = s.pending := rfl

@[simp] theorem finishFrame_cfg (o : OutRecord) (s : State) : (finishFrame o s).cfg = s.cfg := rfl
@[simp] theorem finishFrame_fb (o : OutRecord) (s : State) : (finishFrame o s).fb = s.fb := rfl
@[simp] theorem finishFrame_n (o : OutRecord) (s : State) : (finishFrame o s).n = 0 := rfl
@[simp] theorem finishFrame_outValid (o : OutRecord) (s : State) : (finishFrame o s).outValid = true := rfl
@[simp] theorem finishFrame_out (o : OutRecord) (s : State) : (finishFrame o s).out = o := rfl
@[simp] theorem finishFrame_pending (o : OutRecord) (s : State) : (finishFrame o s).pending = s.pending := rfl

@[simp] theorem raiseError_cfg (r : Reject) (s : State) : (raiseError r s).cfg = s.cfg := rfl
@[simp] theorem raiseError_fb (r : Reject) (s : State) : (raiseError r s).fb = s.fb := rfl
@[simp] theorem raiseError_n (r : Reject) (s : State) : (raiseError r s).n = 0 := rfl
@[simp] theorem raiseError_outValid (r : Reject) (s : State) : (raiseError r s).outValid = true := rfl
@[simp] theorem raiseError_out (r : Reject) (s : State) : (raiseError r s).out = errorRecord r := rfl
@[simp] theorem raiseError_pending (r : Reject) (s : State) : (raiseError r s).pending = s.pending := rfl

@[simp] theorem passEdge_cfg (s : State) : (passEdge s).cfg = s.cfg := rfl
@[simp] theorem passEdge_fb (s : State) : (passEdge s).fb = s.fb := rfl
@[simp] theorem passEdge_n (s : State) : (passEdge s).n = s.n := rfl
@[simp] theorem passEdge_outValid (s : State) : (passEdge s).outValid = s.outValid := rfl
@[simp] theorem passEdge_out (s : State) : (passEdge s).out = s.out := rfl
@[simp] theorem passEdge_pending (s : State) : (passEdge s).pending = s.pending.tail := rfl

@[simp] theorem offerEdge_cfg (e : PortEdge) (s : State) : (offerEdge e s).cfg = s.cfg := rfl
@[simp] theorem offerEdge_fb (e : PortEdge) (s : State) : (offerEdge e s).fb = s.fb := rfl
@[simp] theorem offerEdge_n (e : PortEdge) (s : State) : (offerEdge e s).n = s.n := rfl
@[simp] theorem offerEdge_outValid (e : PortEdge) (s : State) : (offerEdge e s).outValid = s.outValid := rfl
@[simp] theorem offerEdge_out (e : PortEdge) (s : State) : (offerEdge e s).out = s.out := rfl
@[simp] theorem offerEdge_pending (e : PortEdge) (s : State) : (offerEdge e s).pending = e :: s.pending := rfl

@[simp] theorem latchCfg_cfg (c : Cfg) (s : State) : (latchCfg c s).cfg = c := rfl
@[simp] theorem latchCfg_fb (c : Cfg) (s : State) : (latchCfg c s).fb = s.fb := rfl
@[simp] theorem latchCfg_n (c : Cfg) (s : State) : (latchCfg c s).n = s.n := rfl
@[simp] theorem latchCfg_outValid (c : Cfg) (s : State) : (latchCfg c s).outValid = s.outValid := rfl
@[simp] theorem latchCfg_out (c : Cfg) (s : State) : (latchCfg c s).out = s.out := rfl
@[simp] theorem latchCfg_pending (c : Cfg) (s : State) : (latchCfg c s).pending = s.pending := rfl

@[simp] theorem clearOutputs_cfg (s : State) : (clearOutputs s).cfg = s.cfg := rfl
@[simp] theorem clearOutputs_fb (s : State) : (clearOutputs s).fb = s.fb := rfl
@[simp] theorem clearOutputs_n (s : State) : (clearOutputs s).n = 0 := rfl
@[simp] theorem clearOutputs_outValid (s : State) : (clearOutputs s).outValid = false := rfl
@[simp] theorem clearOutputs_out (s : State) : (clearOutputs s).out = OutRecord.cleared := rfl
@[simp] theorem clearOutputs_pending (s : State) : (clearOutputs s).pending = s.pending := rfl

end Sys2Proof.Machine
end

