-- ==== Sys2Proof/Laws/Memory.lean ====
section
/-! SUPPORT. What the operations on the frame buffer do: read after write, the canonical form kept, and what a fetch
of a frame answers. -/

namespace Sys2Proof.Machine

theorem Memory.find_put (m : Memory) (i k : Nat) (b : Byte) :
    (m.put i b).find k = if k = i then some b else m.find k := by
  induction m with
  | nil => simp [Memory.put, Memory.find]
  | cons c rest ih =>
    obtain ⟨j, c⟩ := c
    simp only [Memory.put]
    split
    · simp [Memory.find]
    · split
      · subst i
        by_cases hk : k = j <;> simp [Memory.find, hk]
      · rename_i hij
        simp only [Memory.find, ih]
        by_cases hk : k = j
        · have hki : k ≠ i := fun h => hij (h.symm.trans hk)
          rw [if_pos hk, if_neg hki, if_pos hk]
        · rw [if_neg hk, if_neg hk]

@[simp] theorem Memory.find_put_same (m : Memory) (i : Nat) (b : Byte) : (m.put i b).find i = some b := by
  simp [Memory.find_put]

theorem Memory.find_put_other (m : Memory) {i k : Nat} (b : Byte) (h : k ≠ i) :
    (m.put i b).find k = m.find k := by
  simp [Memory.find_put, h]

theorem wfFrom_put {lo i : Nat} {b : Byte} (m : Memory) (h : wfFrom lo m = true) (hlo : lo ≤ i) (hi : i < fbSize) :
    wfFrom lo (m.put i b) = true := by
  induction m generalizing lo with
  | nil => simp [Memory.put, wfFrom, hlo, hi]
  | cons c rest ih =>
    obtain ⟨j, c⟩ := c
    simp only [wfFrom, Bool.and_eq_true, decide_eq_true_eq] at h
    simp only [Memory.put]
    split
    · simp only [wfFrom, Bool.and_eq_true, decide_eq_true_eq]
      exact ⟨⟨hlo, hi⟩, ⟨by omega, h.1.2⟩, h.2⟩
    · split
      · subst i
        simp [wfFrom, h.1.2, h.2, hlo]
      · simp only [wfFrom, Bool.and_eq_true, decide_eq_true_eq]
        exact ⟨h.1, ih h.2 (by omega)⟩

/-- A write at an index of the buffer keeps the canonical form. -/
theorem Memory.wf_put {m : Memory} {i : Nat} {b : Byte} (h : m.wf = true) (hi : i < fbSize) :
    (m.put i b).wf = true :=
  wfFrom_put m h (Nat.zero_le i) hi

theorem storeByte_wf {s : State} {b : Byte} (h : s.fb.wf = true) : (storeByte b s).fb.wf = true := by
  simp only [storeByte_fb]
  split
  · exact Memory.wf_put h (by simp [fbSize]; omega)
  · exact h

theorem takeByte_wf {s : State} {b : Byte} (h : s.fb.wf = true) : (takeByte b s).fb.wf = true :=
  storeByte_wf (b := b) h

theorem putBytes_wf {m : Memory} {i : Nat} (bytes : List Byte) (h : m.wf = true) (hi : i + bytes.length ≤ fbSize) :
    (putBytes i bytes m).wf = true := by
  induction bytes generalizing i m with
  | nil => exact h
  | cons b rest ih =>
    simp only [List.length_cons] at hi
    exact ih (Memory.wf_put h (by omega)) (by omega)

/-- What a run of bytes put from index `i` on leaves in the buffer. -/
theorem putBytes_find (bytes : List Byte) (m : Memory) (i k : Nat) :
    (putBytes i bytes m).find k = if i ≤ k ∧ k < i + bytes.length then some (bytes.getD (k - i) 0) else m.find k := by
  induction bytes generalizing m i with
  | nil => simp [putBytes]
  | cons b rest ih =>
    simp only [putBytes, ih, Memory.find_put, List.length_cons]
    by_cases hk : k = i
    · subst hk; simp
    · by_cases h : i ≤ k ∧ k < i + (rest.length + 1)
      · have hs : k - i = (k - (i + 1)) + 1 := by omega
        rw [if_pos (by omega), if_pos h, hs, List.getD_cons_succ]
      · rw [if_neg (by omega), if_neg h, if_neg hk]

theorem reset_fb_wf : State.reset.fb.wf = true := rfl

/-- All a read of the buffer can do: it answers the byte listed at an index of the buffer, and nothing else. -/
theorem memRead_eq_ok {m : Memory} {i : Nat} {b : Byte} :
    memRead m i = .ok b ↔ i < fbSize ∧ m.find i = some b := by
  unfold memRead
  split
  · cases h : m.find i <;> simp_all
  · simp_all

/-- All a fetch of consecutive bytes can do. -/
theorem memRange_eq_ok {m : Memory} {i k : Nat} {bytes : List Byte} :
    memRange m i k = .ok bytes ↔
      bytes.length = k ∧ ∀ j, j < k → memRead m (i + j) = .ok (bytes.getD j 0) := by
  induction k generalizing i bytes with
  | zero =>
    simp only [memRange, Except.ok.injEq, Nat.not_lt_zero, false_implies, implies_true, and_true]
    constructor
    · rintro rfl; rfl
    · intro h; exact (List.length_eq_zero_iff.mp h).symm
  | succ k ih =>
    simp only [memRange]
    constructor
    · intro h
      cases hb : memRead m i with
      | error f => simp [hb, bind, Except.bind] at h
      | ok b =>
        cases hr : memRange m (i + 1) k with
        | error f => simp [hb, hr, bind, Except.bind] at h
        | ok rest =>
          simp only [hb, hr, bind, Except.bind, pure, Except.pure, Except.ok.injEq] at h
          subst h
          obtain ⟨hl, hj⟩ := ih.mp hr
          refine ⟨by simp [hl], fun j hlt => ?_⟩
          cases j with
          | zero => simpa using hb
          | succ j =>
            have := hj j (by omega)
            rw [show i + 1 + j = i + (j + 1) by omega] at this
            simpa using this
    · rintro ⟨hl, hj⟩
      obtain _ | ⟨b, rest⟩ := bytes
      · simp at hl
      · have hb : memRead m i = .ok b := by simpa using hj 0 (by omega)
        have hr : memRange m (i + 1) k = .ok rest := by
          refine ih.mpr ⟨by simpa using hl, fun j hlt => ?_⟩
          have := hj (j + 1) (by omega)
          rw [show i + (j + 1) = i + 1 + j by omega] at this
          simpa using this
        simp [hb, hr, bind, Except.bind, pure, Except.pure]

/-- A fetch of consecutive bytes that are all listed answers. -/
theorem memRange_total {m : Memory} {i k : Nat} (hk : i + k ≤ fbSize)
    (h : ∀ j, j < k → (m.find (i + j)).isSome = true) : ∃ bytes, memRange m i k = .ok bytes := by
  induction k generalizing i with
  | zero => exact ⟨[], rfl⟩
  | succ k ih =>
    obtain ⟨b, hb⟩ := Option.isSome_iff_exists.mp (h 0 (by omega))
    have hb' : memRead m i = .ok b := memRead_eq_ok.mpr ⟨by omega, by simpa using hb⟩
    obtain ⟨rest, hr⟩ := ih (i := i + 1) (by omega) (fun j hj => by
      have := h (j + 1) (by omega)
      rwa [show i + (j + 1) = i + 1 + j by omega] at this)
    exact ⟨b :: rest, by simp [memRange, hb', hr, bind, Except.bind, pure, Except.pure]⟩

/-- All a fetch of a frame can do: it answers the bytes listed below `min(n, 256)`, in order. -/
theorem fetchFrame_eq_ok {m : Memory} {n : Nat} {bytes : List Byte} :
    fetchFrame m n = .ok bytes ↔
      bytes.length = min n fbSize ∧ ∀ i, i < min n fbSize → m.find i = some (bytes.getD i 0) := by
  unfold fetchFrame
  rw [memRange_eq_ok]
  constructor
  · rintro ⟨hl, h⟩
    exact ⟨hl, fun i hi => by simpa using (memRead_eq_ok.mp (h i hi)).2⟩
  · rintro ⟨hl, h⟩
    exact ⟨hl, fun i hi => by
      have := Nat.min_le_right n fbSize
      exact memRead_eq_ok.mpr ⟨by omega, by simpa using h i hi⟩⟩

theorem fetchFrame_total {m : Memory} {n : Nat}
    (h : ∀ i, i < min n fbSize → (m.find i).isSome = true) : ∃ bytes, fetchFrame m n = .ok bytes :=
  memRange_total (by have := Nat.min_le_right n fbSize; omega) (fun j hj => by simpa using h j hj)

/-- A fetch depends on the bytes below `min(n, 256)` alone (R46). -/
theorem fetchFrame_congr {m m' : Memory} {n : Nat} (h : ∀ i, i < min n fbSize → m.find i = m'.find i) :
    fetchFrame m n = fetchFrame m' n := by
  have key : ∀ k i, (∀ j, j < k → m.find (i + j) = m'.find (i + j)) → memRange m i k = memRange m' i k := by
    intro k
    induction k with
    | zero => intros; rfl
    | succ k ih =>
      intro i hj
      have h0 : memRead m i = memRead m' i := by
        have := hj 0 (by omega)
        simp only [Nat.add_zero] at this
        simp [memRead, this]
      have h1 := ih (i + 1) (fun j hlt => by
        have := hj (j + 1) (by omega)
        rwa [show i + (j + 1) = i + 1 + j by omega] at this)
      simp [memRange, h0, h1]
  exact key _ 0 (fun j hj => by simpa using h j hj)

end Sys2Proof.Machine
end

