-- ==== Sys2Proof/Laws/Operands.lean ====
section
/-! SUPPORT. What each operand form answers, as numbers. -/

namespace Sys2Proof.Machine

/-- All an operand read can do: it answers the payload byte at the offset. -/
theorem u8_eq_ok {p : List Byte} {k : Nat} {b : Byte} : u8 p k = .ok b ↔ p[k]? = some b := by
  unfold u8
  cases p[k]? <;> simp

theorem u8_of_lt {p : List Byte} {k : Nat} (h : k < p.length) : u8 p k = .ok (p.getD k 0) := by
  rw [u8_eq_ok]
  simp [List.getElem?_eq_getElem h]

theorem u16be_of_lt {p : List Byte} {k : Nat} (h : k + 1 < p.length) :
    u16be p k = .ok (be16 (p.getD k 0) (p.getD (k + 1) 0)) := by
  simp [u16be, u8_of_lt h, u8_of_lt (show k < p.length by omega), bind, Except.bind, pure, Except.pure]

theorem sm16_of_lt {p : List Byte} {k : Nat} (h : k + 1 < p.length) :
    sm16 p k = .ok (signMag (p.getD k 0) (p.getD (k + 1) 0)) := by
  simp [sm16, u8_of_lt h, u8_of_lt (show k < p.length by omega), bind, Except.bind, pure, Except.pure]

theorem nibLo_of_lt {p : List Byte} {k : Nat} (h : k < p.length) : nibLo p k = .ok (lowNibble (p.getD k 0)) := by
  simp only [nibLo, u8_of_lt h, Except.map]

theorem nibHi_of_lt {p : List Byte} {k : Nat} (h : k < p.length) : nibHi p k = .ok (highNibble (p.getD k 0)) := by
  simp only [nibHi, u8_of_lt h, Except.map]

theorem bits2_of_lt {p : List Byte} {k sh : Nat} (h : k < p.length) :
    bits2 p k sh = .ok (slice2 (p.getD k 0) sh) := by
  simp only [bits2, u8_of_lt h, Except.map]

/-- Big-endian assembly loses no bit: `|` is `+` on disjoint bits (R75(a)). -/
theorem be16_toNat (h l : Byte) : (be16 h l).toNat = 256 * h.toNat + l.toNat := by
  have e : be16 h l = (h ++ l : BitVec (8 + 8)) := by
    apply BitVec.eq_of_getLsbD_eq
    intro i hi
    simp only [be16, BitVec.getLsbD_or, BitVec.getLsbD_shiftLeft, BitVec.getLsbD_append, BitVec.truncate_eq_setWidth,
      BitVec.getLsbD_setWidth]
    by_cases h8 : i < 8
    · simp [h8, hi]
    · have hl : l.getLsbD i = false := BitVec.getLsbD_of_ge l i (by omega)
      simp [h8, hi, hl, show i - 8 < 16 by omega]
  have hl := l.isLt
  rw [e, BitVec.toNat_append, ← Nat.shiftLeft_add_eq_or_of_lt hl, Nat.shiftLeft_eq]
  omega

theorem and_7F_toNat (h : Byte) : (h &&& 0x7F#8).toNat = h.toNat % 128 := by
  rw [BitVec.toNat_and]
  exact Nat.and_two_pow_sub_one_eq_mod h.toNat 7

theorem magnitude_toNat (h l : Byte) : (magnitude h l).toNat = 256 * (h.toNat % 128) + l.toNat := by
  rw [magnitude, be16_toNat, and_7F_toNat]

theorem getLsbD_7 (h : Byte) : h.getLsbD 7 = decide (128 ≤ h.toNat) := by
  have : ∀ h : Byte, h.getLsbD 7 = decide (128 ≤ h.toNat) := by decide
  exact this h

/-- Sign and magnitude as one number (R66): 65536 less the magnitude, unless that is 0, when the sign bit is set. -/
theorem signMag_toNat (h l : Byte) :
    (signMag h l).toNat =
      if 128 ≤ h.toNat then (65536 - (256 * (h.toNat % 128) + l.toNat)) % 65536
      else 256 * h.toNat + l.toNat := by
  have hl := l.isLt
  unfold signMag
  rw [getLsbD_7]
  by_cases hh : 128 ≤ h.toNat
  · simp only [hh, decide_true, if_true, neg16, BitVec.toNat_ofNat, magnitude_toNat]
    omega
  · simp only [hh, decide_false, if_false, magnitude_toNat, Bool.false_eq_true]
    omega

/-- Sign and magnitude as a signed number (R66): the magnitude, negated when the sign bit is set. -/
theorem signMag_toInt (h l : Byte) :
    (signMag h l).toInt =
      if 128 ≤ h.toNat then -((h.toNat % 128 * 256 + l.toNat : Nat) : Int)
      else ((h.toNat % 128 * 256 + l.toNat : Nat) : Int) := by
  have := signMag_toNat h l
  have hl := l.isLt
  rw [BitVec.toInt_eq_toNat_cond, this]
  split <;> split <;> omega

theorem lowNibble_toNat (b : Byte) : (lowNibble b).toNat = b.toNat % 16 := by
  have : ∀ b : Byte, (lowNibble b).toNat = b.toNat % 16 := by decide
  exact this b

theorem highNibble_toNat (b : Byte) : (highNibble b).toNat = b.toNat / 16 := by
  have : ∀ b : Byte, (highNibble b).toNat = b.toNat / 16 := by decide
  exact this b

theorem slice2_toNat (b : Byte) (sh : Nat) : (slice2 b sh).toNat = b.toNat / 2 ^ sh % 4 := by
  unfold slice2
  rw [BitVec.truncate_eq_setWidth, BitVec.toNat_setWidth, BitVec.toNat_and, BitVec.toNat_ushiftRight,
    Nat.shiftRight_eq_div_pow, show (0x03#8).toNat = 2 ^ 2 - 1 from rfl, Nat.and_two_pow_sub_one_eq_mod]
  omega

/-- The record of a Temp/Rain payload of nine bytes or more (R110). -/
theorem tempRainRecord_of_length {pt : Byte} {p : List Byte} (h : 9 ≤ p.length) :
    tempRainRecord pt p = .ok {
      outErr := 0, outKind := 1, outPt := pt
      reading := {
        rdSubtype := p.getD 0 0, rdSeq := p.getD 1 0, rdId := be16 (p.getD 2 0) (p.getD 3 0)
        rdTemp := signMag (p.getD 4 0) (p.getD 5 0), rdRain := be16 (p.getD 6 0) (p.getD 7 0)
        rdBatt := lowNibble (p.getD 8 0), rdSig := highNibble (p.getD 8 0), rdChan := 0, rdHum := 0
        rdHumst := 0 } } := by
  unfold tempRainRecord
  rw [u8_of_lt (show 0 < p.length by omega), u8_of_lt (show 1 < p.length by omega),
    u16be_of_lt (show 2 + 1 < p.length by omega), sm16_of_lt (show 4 + 1 < p.length by omega),
    u16be_of_lt (show 6 + 1 < p.length by omega), nibLo_of_lt (show 8 < p.length by omega),
    nibHi_of_lt (show 8 < p.length by omega)]
  rfl

/-- What `TH_CFG_OK` says of each offset, as numbers (R121). -/
theorem thCfgOk_iff {cfg : Cfg} :
    thCfgOk cfg = true ↔
      1 ≤ cfg.thFieldsLen.toNat
        ∧ (1 ≤ cfg.thOffSeq.toNat ∧ cfg.thOffSeq.toNat < cfg.thFieldsLen.toNat)
        ∧ (1 ≤ cfg.thOffChan.toNat ∧ cfg.thOffChan.toNat < cfg.thFieldsLen.toNat)
        ∧ (1 ≤ cfg.thOffHum.toNat ∧ cfg.thOffHum.toNat < cfg.thFieldsLen.toNat)
        ∧ (1 ≤ cfg.thOffHumst.toNat ∧ cfg.thOffHumst.toNat < cfg.thFieldsLen.toNat)
        ∧ (1 ≤ cfg.thOffStatus.toNat ∧ cfg.thOffStatus.toNat < cfg.thFieldsLen.toNat)
        ∧ (1 ≤ cfg.thOffId.toNat ∧ cfg.thOffId.toNat + 1 < cfg.thFieldsLen.toNat)
        ∧ (1 ≤ cfg.thOffTemp.toNat ∧ cfg.thOffTemp.toNat + 1 < cfg.thFieldsLen.toNat)
        ∧ cfg.thHumstShift.toNat ≤ 6 := by
  simp only [thCfgOk, fitsOne, fitsTwo, Bool.and_eq_true, decide_eq_true_eq, and_assoc]

/-- The record of a Temp/Humidity payload that reaches past the field region (R120). -/
theorem tempHumRecord_of_length {cfg : Cfg} {pt : Byte} {p : List Byte} (hc : thCfgOk cfg = true)
    (h : cfg.thFieldsLen.toNat ≤ p.length) :
    tempHumRecord cfg pt p = .ok {
      outErr := 0, outKind := 2, outPt := pt
      reading := {
        rdSubtype := p.getD 0 0, rdSeq := p.getD cfg.thOffSeq.toNat 0
        rdId := be16 (p.getD cfg.thOffId.toNat 0) (p.getD (cfg.thOffId.toNat + 1) 0)
        rdTemp := signMag (p.getD cfg.thOffTemp.toNat 0) (p.getD (cfg.thOffTemp.toNat + 1) 0), rdRain := 0
        rdBatt := lowNibble (p.getD cfg.thOffStatus.toNat 0), rdSig := highNibble (p.getD cfg.thOffStatus.toNat 0)
        rdChan := p.getD cfg.thOffChan.toNat 0, rdHum := p.getD cfg.thOffHum.toNat 0
        rdHumst := humStatus cfg (slice2 (p.getD cfg.thOffHumst.toNat 0) cfg.thHumstShift.toNat) } } := by
  obtain ⟨h0, h1, h2, h3, h4, h5, h6, h7, -⟩ := thCfgOk_iff.mp hc
  unfold tempHumRecord
  rw [u8_of_lt (show 0 < p.length by omega), u8_of_lt (show cfg.thOffSeq.toNat < p.length by omega),
    u8_of_lt (show cfg.thOffChan.toNat < p.length by omega), u16be_of_lt (show cfg.thOffId.toNat + 1 < p.length by omega),
    sm16_of_lt (show cfg.thOffTemp.toNat + 1 < p.length by omega), u8_of_lt (show cfg.thOffHum.toNat < p.length by omega),
    bits2_of_lt (show cfg.thOffHumst.toNat < p.length by omega), nibLo_of_lt (show cfg.thOffStatus.toNat < p.length by omega),
    nibHi_of_lt (show cfg.thOffStatus.toNat < p.length by omega)]
  rfl

end Sys2Proof.Machine
end

