-- ==== Sys2Proof/Laws/Frames.lean ====
section
/-! SUPPORT. What the stages of the frame decoder and the end of a frame can do, said once. -/

namespace Sys2Proof

/-- The stages on a frame that has a header, as one chain of checks (R90, R142). -/
theorem selectDecoder_cons {cfg : Cfg} {n : Nat} {l pt : Byte} {payload : List Byte} (hn : 2 ≤ n) :
    selectDecoder cfg n (l :: pt :: payload) =
      if l.toNat ≠ 1 + (n - 2) then .error ⟨.lengthMismatch, pt⟩
      else if n - 2 < 7 then .error ⟨.tooShort, pt⟩
      else match classify cfg pt with
        | .none => .error ⟨.unknownFamily, pt⟩
        | .tr =>
          if n - 2 < 9 then .error ⟨.tooShort, pt⟩
          else if subtypeListed cfg.trSubtypes payload = true then .ok ⟨.tempRain, pt, payload⟩
          else .error ⟨.unknownFamily, pt⟩
        | .th =>
          if thEffCal cfg = true ∧ n - 2 < cfg.thFieldsLen.toNat + mkMin cfg then .error ⟨.tooShort, pt⟩
          else if ¬ markerAccepted cfg payload (n - 2) = true then .error ⟨.badMarker, pt⟩
          else if ¬ subtypeListed cfg.thSubtypes payload = true then .error ⟨.unknownFamily, pt⟩
          else if thEffCal cfg = true then .ok ⟨.tempHum, pt, payload⟩
          else .error ⟨.unsupportedFamily, pt⟩ := by
  have h2 : ¬ n < 2 := by omega
  simp only [selectDecoder, chkHdr, h2, if_false, bind, Except.bind, chkLen, chkFloor, minPayload, ne_eq]
  by_cases hl : l.toNat = 1 + (n - 2)
  · simp only [hl, if_true, not_true_eq_false, if_false]
    by_cases hf : n - 2 < 7
    · simp [hf]
    · simp only [hf, if_false]
      cases hc : classify cfg pt with
      | none => simp [chkFamMin, chkMarker, dispatch]
      | tr =>
        simp only [chkFamMin, chkMarker, dispatch, trMinPayload, pure, Except.pure]
        by_cases h9 : n - 2 < 9 <;> simp only [h9, if_true, if_false]
        by_cases hs : subtypeListed cfg.trSubtypes payload = true <;> simp [hs]
      | th =>
        simp only [chkFamMin, chkMarker, dispatch, gateTh, pure, Except.pure]
        by_cases hm : thEffCal cfg = true ∧ n - 2 < cfg.thFieldsLen.toNat + mkMin cfg <;>
          simp only [hm, if_true, if_false, and_self]
        by_cases hk : markerAccepted cfg payload (n - 2) = true <;> simp only [hk, if_true, if_false, not_true_eq_false]
        · by_cases hs : subtypeListed cfg.thSubtypes payload = true <;> simp only [hs, if_true, if_false,
            not_true_eq_false]
          · by_cases he : thEffCal cfg = true <;> simp [he]
          · simp
        · simp
  · simp [hl]

/-- A frame of fewer than two bytes has no header (R91). -/
theorem selectDecoder_short {cfg : Cfg} {n : Nat} {bytes : List Byte} (h : n < 2) :
    selectDecoder cfg n bytes = .error ⟨.tooShort, 0⟩ := by
  simp [selectDecoder, chkHdr, h, bind, Except.bind]

theorem selectDecoder_length_lt {cfg : Cfg} {n : Nat} {bytes : List Byte} (h : bytes.length < 2) :
    selectDecoder cfg n bytes = .error ⟨.tooShort, 0⟩ := by
  by_cases hn : n < 2
  · exact selectDecoder_short hn
  · obtain _ | ⟨a, _ | ⟨b, rest⟩⟩ := bytes
    · simp [selectDecoder, chkHdr, hn, bind, Except.bind]
    · simp [selectDecoder, chkHdr, hn, bind, Except.bind]
    · simp at h

theorem classify_eq_tr {cfg : Cfg} {pt : Byte} : classify cfg pt = .tr ↔ pt = cfg.ptTr := by
  unfold classify
  split
  · simp [*]
  · rename_i h
    split <;> simp [h]

theorem classify_eq_th {cfg : Cfg} {pt : Byte} : classify cfg pt = .th ↔ pt ≠ cfg.ptTr ∧ pt = cfg.ptTh := by
  unfold classify
  split
  · simp [*]
  · rename_i h
    split
    · exact ⟨fun _ => ⟨h, by assumption⟩, fun _ => rfl⟩
    · simp [*]

theorem classify_eq_none {cfg : Cfg} {pt : Byte} : classify cfg pt = .none ↔ pt ≠ cfg.ptTr ∧ pt ≠ cfg.ptTh := by
  unfold classify
  split
  · simp [*]
  · split <;> simp_all

/-- All a successful decoding can be: every condition of every stage holds, and the frame is handed on unchanged. -/
theorem selectDecoder_eq_ok {cfg : Cfg} {n : Nat} {bytes : List Byte} {sel : Selected} :
    selectDecoder cfg n bytes = .ok sel ↔
      ∃ l, bytes = l :: sel.pt :: sel.payload ∧ l.toNat = n - 1 ∧ 9 ≤ n ∧
        ((sel.decoder = .tempRain ∧ sel.pt = cfg.ptTr ∧ 11 ≤ n ∧ subtypeListed cfg.trSubtypes sel.payload = true)
        ∨ (sel.decoder = .tempHum ∧ sel.pt ≠ cfg.ptTr ∧ sel.pt = cfg.ptTh ∧ thEffCal cfg = true ∧
            cfg.thFieldsLen.toNat + mkMin cfg ≤ n - 2 ∧ markerAccepted cfg sel.payload (n - 2) = true ∧
            subtypeListed cfg.thSubtypes sel.payload = true)) := by
  by_cases hn : n < 2
  · rw [selectDecoder_short hn]
    simp only [reduceCtorEq, false_iff]
    rintro ⟨l, -, -, h9, -⟩
    omega
  by_cases hb : bytes.length < 2
  · rw [selectDecoder_length_lt hb]
    simp only [reduceCtorEq, false_iff]
    rintro ⟨l, rfl, -⟩
    simp at hb
  obtain _ | ⟨l, _ | ⟨pt, payload⟩⟩ := bytes
  · simp at hb
  · simp at hb
  rw [selectDecoder_cons (by omega)]
  obtain ⟨d, spt, sp⟩ := sel
  constructor
  · intro h
    split at h
    · cases h
    · split at h
      · cases h
      · split at h
        · cases h
        · rename_i hc
          split at h
          · cases h
          · split at h
            · cases h
              exact ⟨l, rfl, by omega, by omega, .inl ⟨rfl, classify_eq_tr.mp hc, by omega, by assumption⟩⟩
            · cases h
        · rename_i hc
          obtain ⟨c1, c2⟩ := classify_eq_th.mp hc
          split at h
          · cases h
          · rename_i hmin
            split at h
            · cases h
            · rename_i hm
              split at h
              · cases h
              · rename_i hs
                split at h
                · rename_i he
                  cases h
                  refine ⟨l, rfl, by omega, by omega, .inr ⟨rfl, c1, c2, he, ?_, ?_, ?_⟩⟩
                  · exact Nat.le_of_not_lt fun hlt => hmin ⟨he, hlt⟩
                  · exact not_not.mp hm
                  · exact not_not.mp hs
                · cases h
  · rintro ⟨l', hb', hl, h9, h⟩
    simp only [List.cons.injEq] at hb'
    obtain ⟨rfl, rfl, rfl⟩ := hb'
    simp only at h
    rw [if_neg (by omega), if_neg (by omega)]
    rcases h with ⟨rfl, hpt, h11, hs⟩ | ⟨rfl, hne, hpt, he, hmin, hm, hs⟩
    · rw [classify_eq_tr.mpr hpt]
      simp only [hs, if_true]
      rw [if_neg (by omega)]
    · rw [classify_eq_th.mpr ⟨hne, hpt⟩]
      simp only [hs, hm, he, true_and, if_true, not_true_eq_false, if_false]
      rw [if_neg (by omega)]

/-- A frame of more than 256 bytes is a length mismatch, whatever it holds (R92(d)). -/
theorem selectDecoder_long {cfg : Cfg} {n : Nat} {l pt : Byte} {payload : List Byte} (h : 257 ≤ n) :
    selectDecoder cfg n (l :: pt :: payload) = .error ⟨.lengthMismatch, pt⟩ := by
  rw [selectDecoder_cons (by omega), if_pos (by have := l.isLt; omega)]

theorem subtypeListed_eq {set : BitVec 256} {p : List Byte} (h : 1 ≤ p.length) :
    subtypeListed set p = set.getLsbD (p.getD 0 0).toNat := by
  obtain _ | ⟨st, rest⟩ := p
  · simp at h
  · rfl

theorem frameBytes_length (pt : Byte) (payload : List Byte) : (frameBytes pt payload).length = 2 + payload.length := by
  simp [frameBytes]; omega

theorem frameBytes_declared {payload : List Byte} (h : payload.length ≤ 254) :
    (BitVec.ofNat 8 (1 + payload.length)).toNat = 1 + payload.length := by
  rw [BitVec.toNat_ofNat]; omega

namespace Machine

/-- The record of a selected frame always exists: every operand read lies in the payload (R46, R117, R131). -/
theorem selectedRecord_total {cfg : Cfg} {n : Nat} {bytes : List Byte} {sel : Selected}
    (h : selectDecoder cfg n bytes = .ok sel) (hb : bytes.length = n) : ∃ o, selectedRecord cfg sel = .ok o := by
  obtain ⟨l, rfl, hl, h9, ⟨hd, -, h11, -⟩ | ⟨hd, -, -, he, hmin, -, -⟩⟩ := selectDecoder_eq_ok.mp h
  · simp only [List.length_cons] at hb
    exact ⟨_, by rw [selectedRecord, hd]; exact tempRainRecord_of_length (by omega)⟩
  · simp only [List.length_cons] at hb
    simp only [thEffCal, Bool.and_eq_true] at he
    exact ⟨_, by rw [selectedRecord, hd]; exact tempHumRecord_of_length he.2 (by omega)⟩

/-- `Eval` answers a record for every configuration and every frame (R90). -/
theorem evalFrame_total (cfg : Cfg) (bytes : List Byte) : ∃ o, evalFrame cfg bytes.length bytes = .ok o := by
  unfold evalFrame
  cases h : selectDecoder cfg bytes.length bytes with
  | error r => exact ⟨_, rfl⟩
  | ok sel => exact selectedRecord_total h rfl

/-- All the end of a frame can do: the bytes are fetched, evaluated, and the record written (R83). -/
theorem completeFrame_eq {s : State} {bytes : List Byte} (h : fetchFrame s.fb s.n.toNat = .ok bytes) :
    completeFrame s =
      match evalFrame s.cfg s.n.toNat bytes with
      | .ok o => .next (finishFrame o s)
      | .error f => .fault f := by
  simp only [completeFrame, evalFrame, h]
  cases selectDecoder s.cfg s.n.toNat bytes with
  | error r => rfl
  | ok sel =>
    dsimp only
    cases selectedRecord s.cfg sel <;> rfl

/-- If the end of a frame answers a next state, it is the frame's record written by finishFrame. -/
theorem completeFrame_next {s t : State} (h : completeFrame s = .next t) :
    ∃ bytes o, fetchFrame s.fb s.n.toNat = .ok bytes ∧ evalFrame s.cfg s.n.toNat bytes = .ok o ∧
      t = finishFrame o s := by
  cases hf : fetchFrame s.fb s.n.toNat with
  | error f => simp [completeFrame, hf] at h
  | ok bytes =>
    rw [completeFrame_eq hf] at h
    cases he : evalFrame s.cfg s.n.toNat bytes with
    | error f => simp [he] at h
    | ok o =>
      simp only [he, Host.Outcome.next.injEq] at h
      exact ⟨bytes, o, rfl, he, h.symm⟩

/-- The counter after a byte was taken (R23). -/
theorem takeByte_n_toNat (b : Byte) (s : State) : (takeByte b s).n.toNat = min (s.n.toNat + 1) 257 := by
  simp only [takeByte_n, nSat, BitVec.toNat_ofNat]
  omega

/-- The buffer after a byte was taken (R82). -/
theorem takeByte_find (b : Byte) (s : State) (i : Nat) :
    (takeByte b s).fb.find i = if i = s.n.toNat ∧ s.n.toNat ≤ 255 then some b else s.fb.find i := by
  simp only [takeByte_fb]
  by_cases h : s.n.toNat ≤ 255
  · simp only [h, if_true, and_true, Memory.find_put]
  · simp [h]

end Machine
end Sys2Proof
end

