-- ==== Sys2Proof/Laws/PerInstr.lean ====
section
/-! SUPPORT. Statements about every instruction as syntax, one lemma per constructor. FrameLength: what a well-formed
instruction is encoded as, a port sample or a frame of 9 to 256 bytes (spec 30_encoding.md R60). -/

namespace Sys2Proof.Laws.FrameLength

/-- A well-formed frame instruction is encoded in 9 to 256 bytes, the first of which counts the others. -/
def Statement (i : Instr) : Prop :=
  ∀ cfg, i.wellFormed cfg = true →
    match encode i with
    | .edge _ => True
    | .frame bytes => 9 ≤ bytes.length ∧ bytes.length ≤ 256 ∧ (bytes.getD 0 0).toNat + 1 = bytes.length

theorem frameBytes_spec {pt : Byte} {payload : List Byte} (h7 : 7 ≤ payload.length) (h : payload.length ≤ 254) :
    9 ≤ (frameBytes pt payload).length ∧ (frameBytes pt payload).length ≤ 256 ∧
      ((frameBytes pt payload).getD 0 0).toNat + 1 = (frameBytes pt payload).length := by
  rw [frameBytes_length]
  refine ⟨by omega, by omega, ?_⟩
  simp only [frameBytes, List.getD_cons_zero]
  rw [frameBytes_declared h]
  omega

theorem tempRain (pt : Byte) (payload : List Byte) : Statement (.tempRain pt payload) := by
  intro cfg h
  simp only [Instr.wellFormed, Bool.and_eq_true, decide_eq_true_eq] at h
  simp only [trMinPayload] at h
  exact frameBytes_spec (by omega) (by omega)

theorem tempHum (pt : Byte) (payload : List Byte) : Statement (.tempHum pt payload) := by
  intro cfg h
  simp only [Instr.wellFormed, Bool.and_eq_true, decide_eq_true_eq] at h
  simp only [minPayload] at h
  exact frameBytes_spec (by omega) (by omega)

theorem accept (b : Byte) : Statement (.accept b) := fun _ _ => trivial

theorem complete (b : Byte) : Statement (.complete b) := fun _ _ => trivial

theorem idle : Statement .idle := fun _ _ => trivial

theorem reset (straps : Cfg) : Statement (.reset straps) := fun _ _ => trivial

end Sys2Proof.Laws.FrameLength
end

