-- ==== Sys2Proof/Laws/Results.lean ====
section
/-! SUPPORT. The result of a frame as a function of its bytes (spec 00_scope.md R6), unfolded once. -/

namespace Sys2Proof.Machine

theorem evalBytes_total (cfg : Cfg) (bytes : List Byte) : ∃ o, evalBytes cfg bytes = .ok o :=
  evalFrame_total cfg bytes

theorem evalBytes_short (cfg : Cfg) {bytes : List Byte} (h : bytes.length < 2) :
    evalBytes cfg bytes = .ok (errorRecord ⟨.tooShort, 0⟩) := by
  unfold evalBytes evalFrame
  rw [selectDecoder_length_lt h]

/-- The result of a frame that has a header, as one chain of checks (R90). -/
theorem evalBytes_cons (cfg : Cfg) (l pt : Byte) (p : List Byte) :
    evalBytes cfg (l :: pt :: p) =
      if l.toNat ≠ 1 + p.length then .ok (errorRecord ⟨.lengthMismatch, pt⟩)
      else if p.length < 7 then .ok (errorRecord ⟨.tooShort, pt⟩)
      else match classify cfg pt with
        | .none => .ok (errorRecord ⟨.unknownFamily, pt⟩)
        | .tr =>
          if p.length < 9 then .ok (errorRecord ⟨.tooShort, pt⟩)
          else if subtypeListed cfg.trSubtypes p = true then tempRainRecord pt p
          else .ok (errorRecord ⟨.unknownFamily, pt⟩)
        | .th =>
          if thEffCal cfg = true ∧ p.length < cfg.thFieldsLen.toNat + mkMin cfg then
            .ok (errorRecord ⟨.tooShort, pt⟩)
          else if ¬ markerAccepted cfg p p.length = true then .ok (errorRecord ⟨.badMarker, pt⟩)
          else if ¬ subtypeListed cfg.thSubtypes p = true then .ok (errorRecord ⟨.unknownFamily, pt⟩)
          else if thEffCal cfg = true then tempHumRecord cfg pt p
          else .ok (errorRecord ⟨.unsupportedFamily, pt⟩) := by
  unfold evalBytes evalFrame
  rw [selectDecoder_cons (by simp)]
  simp only [List.length_cons, show p.length + 1 + 1 - 2 = p.length by omega]
  by_cases h1 : l.toNat = 1 + p.length
  · by_cases h2 : p.length < 7
    · simp [h1, h2]
    · simp only [h1, h2, ne_eq, not_true_eq_false, if_false]
      cases classify cfg pt with
      | none => rfl
      | tr =>
        dsimp only
        by_cases h3 : p.length < 9
        · simp [h3]
        · by_cases h4 : subtypeListed cfg.trSubtypes p = true <;> simp [h3, h4, selectedRecord]
      | th =>
        dsimp only
        by_cases h3 : thEffCal cfg = true ∧ p.length < cfg.thFieldsLen.toNat + mkMin cfg
        · simp [h3]
        · simp only [h3, if_false]
          by_cases h4 : markerAccepted cfg p p.length = true
          · by_cases h5 : subtypeListed cfg.thSubtypes p = true
            · by_cases h6 : thEffCal cfg = true <;> simp [h4, h5, h6, selectedRecord]
            · simp [h4, h5]
          · simp [h4]
  · simp [h1]

end Sys2Proof.Machine
end

