-- ==== Sys2Proof/Laws/Run.lean ====
section
/-! SUPPORT. Runs of the machine, and which event a step runs. -/

namespace Sys2Proof

/-- Every port sample is one of the four events (R5). -/
theorem decodeEdge_cases (e : PortEdge) :
    (∃ b, decodeEdge e = .accept b) ∨ (∃ b, decodeEdge e = .complete b) ∨ decodeEdge e = .idle ∨
      ∃ straps, decodeEdge e = .reset straps := by
  unfold decodeEdge
  split
  · exact .inr (.inr (.inr ⟨_, rfl⟩))
  · split
    · split
      · exact .inr (.inl ⟨_, rfl⟩)
      · exact .inl ⟨_, rfl⟩
    · exact .inr (.inr (.inl rfl))

namespace Machine

theorem core_run_zero (s : State) : core.run 0 s = .next s := rfl

/-- One step, then the rest of the run. -/
theorem core_run_succ_of_step {s t : State} (k : Nat) (h : step s = .next t) : core.run (k + 1) s = core.run k t := by
  have h' : core.step s = .next t := h
  simp only [Host.Core.run, h']

/-- All a completion can do when it answers a next state: a record written at the end of the frame. -/
theorem execComplete_next {s t : State} {b : Byte} (h : exec (.complete b) s = .next t) :
    ∃ o, t = finishFrame o (takeByte b s) := by
  obtain ⟨_, o, -, -, rfl⟩ := completeFrame_next (show completeFrame (takeByte b s) = .next t from h)
  exact ⟨o, rfl⟩

/-- All a step can do when it answers a next state: one of the four events' effects on the state past the sample. -/
theorem step_next {s t : State} (h : step s = .next t) :
    (∃ b, decodeEdge (nextEdge s) = .accept b ∧ t = dropValid (takeByte b (passEdge s))) ∨
    (∃ b o, decodeEdge (nextEdge s) = .complete b ∧ completeFrame (takeByte b (passEdge s)) = .next t ∧
      t = finishFrame o (takeByte b (passEdge s))) ∨
    (decodeEdge (nextEdge s) = .idle ∧ t = dropValid (passEdge s)) ∨
    ∃ straps, decodeEdge (nextEdge s) = .reset straps ∧ t = clearOutputs (latchCfg straps (passEdge s)) := by
  unfold step at h
  rcases decodeEdge_cases (nextEdge s) with ⟨b, he⟩ | ⟨b, he⟩ | he | ⟨c, he⟩ <;> rw [he] at h
  · cases h; exact .inl ⟨b, he, rfl⟩
  · obtain ⟨o, rfl⟩ := execComplete_next h
    exact .inr (.inl ⟨b, o, he, h, rfl⟩)
  · cases h; exact .inr (.inr (.inl ⟨he, rfl⟩))
  · cases h; exact .inr (.inr (.inr ⟨c, he, rfl⟩))

end Machine
end Sys2Proof
end

