-- ==== Sys2Proof/Tests/Slice0.lean ====
section
/-! SUPPORT. The model's own tests. Expected values are those of spec 95_test_vectors.md (DOC00's scenarios S1 to S3 and the
vectors derived from the rules), or written out from the rule named; none was taken from the model's answer.
First the smoke test of each well-formedness check, then decoding, then one step per instruction, then, for each
statement with hypotheses, a state and operands that meet them. -/

namespace Sys2Proof.Tests

open Sys2Proof.Machine

/-- `CFG_EX` of 95_test_vectors.md. -/
def cfgEx : Cfg :=
  { ptTr := 0x4F, ptTh := 0x52, trSubtypes := 2, thSubtypes := 2
    ml := 4, mkFull := [0x4D, 0x41, 0x52, 0x4B], ms := 2, mkShort := [0x4D, 0x4B]
    thCal := false, thFieldsLen := 10, thOffSeq := 1, thOffChan := 2, thOffId := 3, thOffTemp := 5, thOffHum := 7
    thOffHumst := 9, thHumstShift := 0, thHumstMap := #v[0, 2, 1, 3], thOffStatus := 8 }

/-- `CFG_EX_CAL`. -/
def cfgExCal : Cfg := { cfgEx with thCal := true }

/-- `CFG_EX_BAD`: the second temperature byte lies outside the field region. -/
def cfgExBad : Cfg := { cfgExCal with thOffTemp := 9 }

/-- Payloads `P_S1` and `P_S2`. -/
def payS1 : List Byte := [0x01, 0x01, 0xDE, 0xAD, 0x01, 0x4A, 0x02, 0xEE, 0x42]

def payS2 : List Byte := [0x01, 0x01, 0xDE, 0xAD, 0x80, 0x64, 0x02, 0xEE, 0x42]

/-- The field region `THF`, and `THF` with the full marker. -/
def thf : List Byte := [0x01, 0x2A, 0x02, 0xBE, 0xEF, 0x80, 0xD7, 0x41, 0x69, 0x03]

def payH4 : List Byte := thf ++ [0x4D, 0x41, 0x52, 0x4B]

/-- A machine with this configuration, these frame bytes taken, and these samples to come. -/
def mk (cfg : Cfg) (got : List Byte) (pending : List PortEdge) : State :=
  { cfg := cfg, fb := putBytes 0 got [], n := BitVec.ofNat 9 got.length, outValid := false,
    out := OutRecord.cleared, pending := pending }

/-- The state an outcome goes on in, if it does. -/
def nextOf : Outcome → Option State
  | .next t => some t
  | .fault _ => none
  | .refused _ => none

/-! ## Each well-formedness check refuses an ill-formed term -/

theorem test_cfgEx_wellFormed : cfgEx.wellFormed = true ∧ cfgExCal.wellFormed = true := by decide

theorem test_cfg_equal_types : ({ cfgEx with ptTh := 0x4F } : Cfg).wellFormed = false := by decide

theorem test_cfg_without_subtype_one : ({ cfgEx with trSubtypes := 4 } : Cfg).wellFormed = false := by decide

theorem test_cfg_no_full_marker : ({ cfgEx with ml := 0, ms := 0 } : Cfg).wellFormed = false := by decide

theorem test_cfg_short_not_shorter : ({ cfgEx with ms := 4, mkShort := [1, 2, 3, 4] } : Cfg).wellFormed = false := by
  decide

theorem test_cfg_marker_bytes_missing : ({ cfgEx with ml := 5 } : Cfg).wellFormed = false ∧
    ({ cfgEx with ms := 3 } : Cfg).wellFormed = false := by decide

theorem test_tempRain_wellFormed : (Instr.tempRain 0x4F payS1).wellFormed cfgEx = true := by decide

theorem test_tempRain_wrong_type : (Instr.tempRain 0x50 payS1).wellFormed cfgEx = false := by decide

theorem test_tempRain_too_short : (Instr.tempRain 0x4F (payS1.take 8)).wellFormed cfgEx = false := by decide

set_option maxRecDepth 10000 in
theorem test_tempRain_too_long :
    (Instr.tempRain 0x4F (payS1 ++ List.replicate 246 0)).wellFormed cfgEx = false := by decide

theorem test_tempRain_unlisted_subtype : (Instr.tempRain 0x4F (2 :: payS1)).wellFormed cfgEx = false := by decide

theorem test_tempHum_wellFormed : (Instr.tempHum 0x52 payH4).wellFormed cfgExCal = true := by decide

theorem test_tempHum_wrong_type : (Instr.tempHum 0x4F payH4).wellFormed cfgExCal = false := by decide

theorem test_tempHum_tied_type :
    (Instr.tempHum 0x52 payH4).wellFormed { cfgExCal with ptTr := 0x52 } = false := by decide

theorem test_tempHum_uncalibrated : (Instr.tempHum 0x52 payH4).wellFormed cfgEx = false := by decide

theorem test_tempHum_ill_formed_table : (Instr.tempHum 0x52 payH4).wellFormed cfgExBad = false := by decide

theorem test_tempHum_bad_marker :
    (Instr.tempHum 0x52 (thf ++ [0x4D, 0x41, 0x52, 0x58])).wellFormed cfgExCal = false := by decide

theorem test_tempHum_below_minimum : (Instr.tempHum 0x52 (thf ++ [0x4B])).wellFormed cfgExCal = false := by decide

theorem test_tempHum_below_floor :
    (Instr.tempHum 0x52 [1, 0x4D, 0x4B]).wellFormed { cfgExCal with thFieldsLen := 1 } = false := by decide

set_option maxRecDepth 10000 in
theorem test_tempHum_too_long :
    (Instr.tempHum 0x52 (thf ++ List.replicate 243 0 ++ [0x4D, 0x4B])).wellFormed cfgExCal = false := by decide

theorem test_tempHum_unlisted_subtype :
    (Instr.tempHum 0x52 (2 :: payH4)).wellFormed cfgExCal = false := by decide

theorem test_line_empty_raw : (Line.raw []).wellFormed = false := by decide

set_option maxRecDepth 10000 in
theorem test_line_frame_too_long : (Line.frame 0 (List.replicate 255 0)).wellFormed = false := by decide

theorem test_line_tr_temperature : (Line.tr 0 0 0 0 32768 0 0 0).wellFormed = false := by decide

theorem test_line_th_wellFormed :
    (Line.th cfgExCal 0x52 1 0x2A 2 0xBEEF (-215) 65 3 9 6 [0x4D, 0x4B]).wellFormed = true := by decide

theorem test_line_th_temperature :
    (Line.th cfgExCal 0x52 1 0x2A 2 0xBEEF (-32768) 65 3 9 6 [0x4D, 0x4B]).wellFormed = false := by decide

theorem test_line_th_table : (Line.th cfgExBad 0x52 1 0x2A 2 0xBEEF (-215) 65 3 9 6 [0x4D, 0x4B]).wellFormed = false := by
  decide

theorem test_line_th_marker : (Line.th cfgExCal 0x52 1 0x2A 2 0xBEEF (-215) 65 3 9 6 [0x4D]).wellFormed = false := by
  decide

theorem test_line_th_too_long :
    (Line.th { cfgExCal with thFieldsLen := 253 } 0x52 1 0 0 0 0 0 0 0 0 [0x4D, 0x4B]).wellFormed = false := by decide

/-! ## Decoding: words written out from opcode_table.json, and frames of 95_test_vectors.md -/

/-- ACCEPT is `010bbbbbbbb`: b = 0x0A. -/
theorem test_decode_accept : decodeTableWord 16 0b01000001010 = some (.accept 0x0A) := by decide

/-- COMPLETE is `011bbbbbbbb`: b = 0x42. -/
theorem test_decode_complete : decodeTableWord 16 0b01101000010 = some (.complete 0x42) := by decide

/-- IDLE is `00xxxxxxxxx`: in_last and in_byte are ignored. -/
theorem test_decode_idle : decodeTableWord 16 0b00000000000 = some .idle ∧
    decodeTableWord 16 0b00101011010 = some .idle := by decide

/-- RESET is `1xxxxxxxxxx`: rst wins over in_valid. -/
theorem test_decode_reset : decodeEdge ⟨0b10000000000#11, cfgEx⟩ = .reset cfgEx ∧
    decodeEdge ⟨0b11101000010#11, cfgEx⟩ = .reset cfgEx := by decide

/-- A port word has 11 bits. -/
theorem test_decode_no_twelfth_bit : decodeTableWord 16 0x800 = none := by decide

/-- S1's frame (format TR, R62). -/
theorem test_decode_tempRain :
    (decodeFrame cfgEx [0x0A, 0x4F, 0x01, 0x01, 0xDE, 0xAD, 0x01, 0x4A, 0x02, 0xEE, 0x42]).toOption =
      some (.tempRain 0x4F payS1) := by decide

/-- H5's frame (format TH, R63): the shortened marker. -/
theorem test_decode_tempHum :
    (decodeFrame cfgExCal [0x0D, 0x52, 0x01, 0x2A, 0x02, 0xBE, 0xEF, 0x80, 0xD7, 0x41, 0x69, 0x03, 0x4D, 0x4B]).toOption =
      some (.tempHum 0x52 (thf ++ [0x4D, 0x4B])) := by decide

/-- The error a frame is rejected with, if it is. -/
def rejectOf (cfg : Cfg) (bytes : List Byte) : Option Reject :=
  match decodeFrame cfg bytes with
  | .ok _ => none
  | .error r => some r

/-- V1, V3, V8, V10, V11: one frame for each stage. -/
theorem test_reject_structure :
    rejectOf cfgEx (0x0B :: 0x4F :: payS1) = some ⟨.lengthMismatch, 0x4F⟩ ∧
    rejectOf cfgEx [0x00] = some ⟨.tooShort, 0x00⟩ ∧
    rejectOf cfgEx [0x08, 0x99, 0x01, 0x01, 0xDE, 0xAD, 0x01, 0x4A, 0x02] = some ⟨.unknownFamily, 0x99⟩ ∧
    rejectOf cfgEx (0x09 :: 0x4F :: payS1.take 8) = some ⟨.tooShort, 0x4F⟩ ∧
    rejectOf cfgEx [0x09, 0x4F, 0x02, 0x01, 0xDE, 0xAD, 0x01, 0x4A, 0x02, 0xEE] = some ⟨.tooShort, 0x4F⟩ := by decide

/-- H1, H2, H3, H8, H9, H16. -/
theorem test_reject_humidity :
    rejectOf cfgEx (0x0F :: 0x52 :: payH4) = some ⟨.unsupportedFamily, 0x52⟩ ∧
    rejectOf cfgEx (0x0B :: 0x52 :: thf) = some ⟨.badMarker, 0x52⟩ ∧
    rejectOf cfgEx (0x0F :: 0x52 :: 0x02 :: payH4.tail) = some ⟨.unknownFamily, 0x52⟩ ∧
    rejectOf cfgExCal (0x0C :: 0x52 :: thf ++ [0x4B]) = some ⟨.tooShort, 0x52⟩ ∧
    rejectOf cfgExCal (0x0D :: 0x52 :: thf.take 8 ++ [0x4D, 0x41, 0x52, 0x4B]) = some ⟨.badMarker, 0x52⟩ ∧
    rejectOf cfgExBad (0x0F :: 0x52 :: payH4) = some ⟨.unsupportedFamily, 0x52⟩ := by decide

/-- No full marker and no shortened one (R96 corner case b). -/
theorem test_reject_no_marker_variant :
    rejectOf { cfgExCal with ml := 0, ms := 0 } (0x0F :: 0x52 :: payH4) = some ⟨.badMarker, 0x52⟩ := by decide

set_option maxRecDepth 10000 in
/-- V14: `1 + 255` does not wrap to a byte. -/
theorem test_reject_257_bytes :
    rejectOf cfgEx (0xFF :: 0x4F :: 0x01 :: List.replicate 254 0x00) = some ⟨.lengthMismatch, 0x4F⟩ := by decide

/-! ## One step each -/

/-- T7: a distinct value in every field. -/
theorem test_tempRain_T7 :
    (nextOf (exec (.tempRain 0x4F [0x01, 0x7E, 0x12, 0x34, 0x81, 0x00, 0x12, 0x34, 0xA5]) (mk cfgEx [] []))).map State.out =
      some { outErr := 0, outKind := 1, outPt := 0x4F
             reading := { rdSubtype := 0x01, rdSeq := 0x7E, rdId := 0x1234, rdTemp := 0xFF00, rdRain := 0x1234,
                          rdBatt := 5, rdSig := 10, rdChan := 0, rdHum := 0, rdHumst := 0 } } := by decide

/-- T2: negative zero decodes to 0. -/
theorem test_tempRain_negative_zero :
    (nextOf (exec (.tempRain 0x4F [0x01, 0, 0, 0, 0x80, 0, 0, 0, 0]) (mk cfgEx [] []))).map (·.out.reading.rdTemp) =
      some 0 := by decide

/-- H4. -/
theorem test_tempHum_H4 :
    (nextOf (exec (.tempHum 0x52 payH4) (mk cfgExCal [] []))).map State.out =
      some { outErr := 0, outKind := 2, outPt := 0x52
             reading := { rdSubtype := 0x01, rdSeq := 0x2A, rdId := 0xBEEF, rdTemp := 0xFF29, rdRain := 0,
                          rdBatt := 9, rdSig := 6, rdChan := 0x02, rdHum := 0x41, rdHumst := 3 } } := by decide

/-- H13 with the field one bit higher (`TH_HUMST_SHIFT` = 1, R68): byte 0xFD has bits 2:1 = 2, which the map sends to 1. -/
theorem test_tempHum_shift :
    (nextOf (exec (.tempHum 0x52 [0x01, 0x2A, 0x02, 0xBE, 0xEF, 0x80, 0xD7, 0x41, 0x69, 0xFD, 0x4D, 0x4B])
      (mk { cfgExCal with thHumstShift := 1 } [] []))).map (·.out.reading.rdHumst) = some 1 := by decide

/-- I1. -/
theorem test_accept_first_byte :
    (nextOf (step (mk cfgEx [] [byteEdge 0x0A false]))).map (fun t => (t.n, t.fb, t.outValid)) =
      some (1, [(0, 0x0A)], false) := by decide

/-- At `N` = 256 the byte is dropped and `N` becomes 257 (R82). -/
theorem test_accept_dropped :
    (nextOf (exec (.accept 0x55) { mk cfgEx [] [] with n := 256 })).map (fun t => (t.n, t.fb)) = some (257, []) := by
  decide

/-- The last row of Part 5's trace: S1's frame completes. -/
theorem test_complete_S1 :
    (nextOf (step (mk cfgEx (0x0A :: 0x4F :: payS1.dropLast) [byteEdge 0x42 true]))).map
        (fun t => (t.out, t.outValid, t.n)) =
      some ({ outErr := 0, outKind := 1, outPt := 0x4F
              reading := { rdSubtype := 0x01, rdSeq := 0x01, rdId := 0xDEAD, rdTemp := 0x014A, rdRain := 0x02EE,
                           rdBatt := 2, rdSig := 4, rdChan := 0, rdHum := 0, rdHumst := 0 } }, true, 0) := by decide

/-- Program B, result 5: the stale byte FB[10] = 0x42 is not read. -/
theorem test_complete_stale_byte :
    (nextOf (step { mk cfgEx (0x09 :: 0x4F :: payS1) [byteEdge 0xEE true] with n := 9 })).map (·.out) =
      some { outErr := 2, outKind := 0, outPt := 0x4F, reading := Reading.zero } := by decide

/-- I4: the strobe falls, the result stays. -/
theorem test_idle :
    (nextOf (exec .idle { mk cfgEx [] [] with outValid := true, out := { OutRecord.cleared with outErr := 5 } })).map
        (fun t => (t.outValid, t.out.outErr)) = some (false, 5) := by decide

/-- Program D, step 4: a reset in mid-frame, with the straps of that edge. -/
theorem test_reset_mid_frame :
    (nextOf (step (mk cfgEx [0x0A, 0x4F, 0x01] [resetEdge cfgExCal]))).map (fun t => (t.n, t.cfg, t.fb.length)) =
      some (0, cfgExCal, 3) := by decide

/-- Part 2: S2's `tr` line expands to its bytes. -/
theorem test_tr_line_S2 : frameBytes 0x4F (trPayload 0x01 0x01 0xDEAD (-100) 750 2 4) = 0x0A :: 0x4F :: payS2 := by
  decide

/-- Part 3: H4's `th` line expands to its bytes. -/
theorem test_th_line_H4 :
    frameBytes 0x52 (thRegion cfgExCal 0x01 0x2A 0x02 0xBEEF (-215) 65 3 9 6 ++ cfgExCal.mkFull) =
      0x0F :: 0x52 :: payH4 := by decide

/-- An event placed by withFetchWord is the next step's, from reset. -/
theorem test_withFetchWord_complete :
    (nextOf (step (State.reset.withFetchWord 16 0x300))).map (fun t => (t.out.outErr, t.outValid, t.n)) =
      some (2, true, 0) := by decide

/-- A frame placed by withFetchWord runs at the next step: header word 0x0A4F01, payload bytes of zero (T1). -/
theorem test_withFetchWord_frame :
    (nextOf (step ((mk cfgEx [] []).withFetchWord 24 0x0A4F01))).map (fun t => (t.out.outErr, t.out.outKind, t.n)) =
      some (0, 1, 0) := by decide

/-! ## Each statement's hypotheses can be met -/

theorem witness_DecodeInvertsEncode :
    (Instr.tempRain 0x4F payS1).wellFormed cfgEx = true ∧ (Instr.tempHum 0x52 payH4).wellFormed cfgExCal = true ∧
      (Instr.accept 0xFF).wellFormed cfgEx = true ∧ (Instr.reset cfgEx).wellFormed cfgEx = true := by decide

theorem witness_DecodedFrameIsItsEncoding :
    (decodeFrame cfgExCal (0x0F :: 0x52 :: payH4)).toOption = some (.tempHum 0x52 payH4) := by decide

theorem witness_WordsDecodeAsWritten : cfgEx.ptTr = 0x4F#8 ∧ cfgEx.trSubtypes.getLsbD 1 = true := by decide

theorem witness_StepRunsDecodedEvent :
    (mk cfgEx [] [byteEdge 0x0A false]).pending = [byteEdge 0x0A false] ∧
      (decode cfgEx (.edge (byteEdge 0x0A false))).toOption = some (.accept 0x0A) ∧
      (Instr.accept 0x0A).wellFormed cfgEx = true := ⟨rfl, by decide, by decide⟩

/-- The state of test_complete_S1 before its last byte. -/
def beforeS1 : State := mk cfgEx (0x0A :: 0x4F :: payS1.dropLast) [byteEdge 0x42 true]

theorem witness_StepRunsDecodedFrame :
    beforeS1.pending = [byteEdge 0x42 true] ∧ decodeEdge (byteEdge 0x42 true) = .complete 0x42 ∧
      beforeS1.n.toNat ≤ 255 ∧
      (fetchFrame (takeByte 0x42 beforeS1).fb (beforeS1.n.toNat + 1)).toOption = some (0x0A :: 0x4F :: payS1) ∧
      (decodeFrame beforeS1.cfg (0x0A :: 0x4F :: payS1)).toOption = some (.tempRain 0x4F payS1) :=
  ⟨rfl, by decide, by decide, by decide, by decide⟩

/-- Likewise with a length byte one too large (V1). -/
def beforeV1 : State := mk cfgEx (0x0B :: 0x4F :: payS1.dropLast) [byteEdge 0x42 true]

theorem witness_StepRaisesRejectedFrame :
    beforeV1.pending = [byteEdge 0x42 true] ∧ decodeEdge (byteEdge 0x42 true) = .complete 0x42 ∧
      beforeV1.n.toNat ≤ 255 ∧
      (fetchFrame (takeByte 0x42 beforeV1).fb (beforeV1.n.toNat + 1)).toOption = some (0x0B :: 0x4F :: payS1) ∧
      rejectOf beforeV1.cfg (0x0B :: 0x4F :: payS1) = some ⟨.lengthMismatch, 0x4F⟩ :=
  ⟨rfl, by decide, by decide, by decide, by decide⟩

/-- AcceptStoresAndCounts: its storing clause at its last index, its other clause at the first count past it, and its
encoding clause. -/
theorem witness_AcceptStoresAndCounts :
    ({ mk cfgEx [] [] with n := 255 } : State).n.toNat ≤ 255 ∧
      255 < ({ mk cfgEx [] [] with n := 256 } : State).n.toNat ∧
      (byteEdge 0x7F false).word.getLsbD 10 = false ∧ (byteEdge 0x7F false).word.getLsbD 9 = true ∧
      (byteEdge 0x7F false).word.getLsbD 8 = false ∧ (byteEdge 0x7F false).word.extractLsb' 0 8 = 0x7F#8 := by decide

theorem witness_CompleteWritesEval :
    beforeS1.n.toNat = (0x0A :: 0x4F :: payS1.dropLast).length ∧ (0x0A :: 0x4F :: payS1.dropLast).length ≤ 255 ∧
      ∀ i, i < (0x0A :: 0x4F :: payS1.dropLast).length →
        beforeS1.fb.find i = some ((0x0A :: 0x4F :: payS1.dropLast).getD i 0) := by decide

theorem witness_IdleOnlyDropsStrobe :
    (⟨0x1FF#11, cfgEx⟩ : PortEdge).word.getLsbD 10 = false ∧ (⟨0x1FF#11, cfgEx⟩ : PortEdge).word.getLsbD 9 = false := by
  decide

theorem witness_ResetLatchesAndClears : (⟨0x7FF#11, cfgEx⟩ : PortEdge).word.getLsbD 10 = true := by decide

/-- For every statement about TEMP_RAIN's fields: the least payload. -/
theorem witness_TempRainWritesFields : 9 ≤ payS1.length := by decide

/-- TempRainTemperature: a set sign bit and a clear one, each at the edge of its range. -/
theorem witness_TempRainTemperature :
    9 ≤ payS2.length ∧ 128 ≤ (payS2.getD 4 0).toNat ∧ 9 ≤ ([1, 1, 0, 0, 0x7F, 0, 0, 0, 0] : List Byte).length ∧
      (([1, 1, 0, 0, 0x7F, 0, 0, 0, 0] : List Byte).getD 4 0).toNat < 128 := by decide

/-- For every statement about TEMP_HUM's fields: a well-formed table, and a payload of just its field region. -/
theorem witness_TempHumWritesFields :
    thCfgOk (mk cfgExCal [] []).cfg = true ∧ (mk cfgExCal [] []).cfg.thFieldsLen.toNat ≤ thf.length := by decide

theorem witness_NibblesRebuildStatusByte :
    9 ≤ payS1.length ∧ thCfgOk (mk cfgExCal [] []).cfg = true ∧
      (mk cfgExCal [] []).cfg.thFieldsLen.toNat ≤ thf.length := by decide

/-- TempHumTemperature: a set sign bit at 0x80 and a clear one at 0x7F. -/
theorem witness_TempHumTemperature :
    thCfgOk (mk cfgExCal [] []).cfg = true ∧ (mk cfgExCal [] []).cfg.thFieldsLen.toNat ≤ thf.length ∧
      128 ≤ (thf.getD (mk cfgExCal [] []).cfg.thOffTemp.toNat 0).toNat ∧
      ((thf.set 5 0x7F).getD (mk cfgExCal [] []).cfg.thOffTemp.toNat 0).toNat < 128 ∧
      (mk cfgExCal [] []).cfg.thFieldsLen.toNat ≤ (thf.set 5 0x7F).length := by decide

theorem witness_TempRainDecodesEveryPayload :
    (0x0A#8).toNat = 2 + payS1.tail.length ∧ 8 ≤ payS1.tail.length ∧
      cfgEx.trSubtypes.getLsbD (0x01#8).toNat = true := by decide

theorem witness_TempRainIgnoresTail : 9 ≤ payS1.length ∧ payS1.length + [0xAA#8, 0xBB#8].length ≤ 254 := by decide

theorem witness_DecodedInstructionCompletes :
    (decodeFrame (mk cfgExCal [] []).cfg (0x0F :: 0x52 :: payH4)).toOption = some (.tempHum 0x52 payH4) := by decide

/-- UncalibratedNeverReads: each of its two grounds, with a frame that has a result. -/
theorem witness_UncalibratedNeverReads :
    cfgEx.thCal = false ∧ thCfgOk cfgExBad = false ∧
      (evalBytes cfgEx (0x0F :: 0x52 :: payH4)).toOption = some (errorRecord ⟨.unsupportedFamily, 0x52⟩) ∧
      (evalBytes cfgExBad (0x0F :: 0x52 :: payH4)).toOption = some (errorRecord ⟨.unsupportedFamily, 0x52⟩) := by decide

/-- GateDecidesOnCalibration: both sides of the gate. -/
theorem witness_GateDecidesOnCalibration :
    (cfgEx.ptTh ≠ cfgEx.ptTr ∧ 6 ≤ payH4.tail.length ∧ payH4.tail.length ≤ 253 ∧ thEffCal cfgEx = false ∧
      markerAccepted cfgEx (0x01 :: payH4.tail) (1 + payH4.tail.length) = true ∧
      cfgEx.thSubtypes.getLsbD (0x01#8).toNat = true) ∧
    thEffCal cfgExCal = true ∧ cfgExCal.thFieldsLen.toNat + mkMin cfgExCal ≤ 1 + payH4.tail.length ∧
      markerAccepted cfgExCal (0x01 :: payH4.tail) (1 + payH4.tail.length) = true := by decide

/-- ValidationGuarantees, (a), (b), (c) at 8 and at 9 payload bytes, (d) on both grounds, (e) on a bad marker. -/
theorem witness_ValidationGuarantees :
    (0x0B#8).toNat ≠ 1 + payS1.length ∧
    ((0x07#8).toNat = 1 + (payS1.take 6).length ∧ (payS1.take 6).length < 7) ∧
    ((0x09#8).toNat = 1 + (payS1.take 8).length ∧ 0x4F#8 = cfgEx.ptTr ∧ (payS1.take 8).length < 9) ∧
    ((0x0A#8).toNat = 1 + payS1.length ∧ 9 ≤ payS1.length) ∧
    0x4F#8 ≠ cfgEx.ptTh ∧ ({ cfgEx with ptTh := 0x4F } : Cfg).ptTr = ({ cfgEx with ptTh := 0x4F } : Cfg).ptTh ∧
    (evalBytes cfgEx (0x0B :: 0x52 :: thf)).toOption = some (errorRecord ⟨.badMarker, 0x52⟩) ∧
    (errorRecord ⟨.badMarker, 0x52⟩).outErr = 3 := by decide

/-- MarkerIsExactTail, both sides of it: each variant alone is accepted, neither at the other's length, nor a length
of 0. -/
theorem witness_MarkerIsExactTail :
    markerAccepted { cfgExCal with ms := 0 } payH4 payH4.length = true ∧
    markerAccepted { cfgExCal with ml := 0 } (thf ++ [0x4D, 0x4B]) 12 = true ∧
    markerAccepted { cfgExCal with ml := 2, ms := 4 } payH4 payH4.length = false ∧
    markerAccepted { cfgExCal with ml := 0, ms := 0 } payH4 payH4.length = false := by decide

theorem witness_EqualPacketTypesAreRain :
    ({ cfgExCal with ptTh := 0x4F } : Cfg).ptTr = ({ cfgExCal with ptTh := 0x4F } : Cfg).ptTh ∧
      (evalBytes { cfgExCal with ptTh := 0x4F } (0x0A :: 0x4F :: payS1)).toOption.map (·.outKind) = some 1 := by decide

theorem witness_OneByteFrameIsTooShort : (mk cfgEx [] []).n = 0 := by decide

/-- A buffer with all 256 bytes in it. -/
def fullBuffer : State := { mk cfgEx (List.replicate 256 0x00) [] with n := 256 }

theorem witness_OversizeFrameIsMismatch :
    256 ≤ fullBuffer.n.toNat ∧ ∀ i, i < 256 → (fullBuffer.fb.find i).isSome = true := by
  refine ⟨by decide, fun i hi => ?_⟩
  simp only [fullBuffer, mk, putBytes_find, List.length_replicate]
  rw [if_pos (by omega)]
  rfl

theorem witness_ErrorEntryWritesRecord :
    (fetchFrame (takeByte 0x42 beforeV1).fb (takeByte 0x42 beforeV1).n.toNat).toOption =
        some (0x0B :: 0x4F :: payS1) ∧
      (match selectDecoder beforeV1.cfg (takeByte 0x42 beforeV1).n.toNat (0x0B :: 0x4F :: payS1) with
        | .error r => decide (r = ⟨.lengthMismatch, 0x4F⟩)
        | .ok _ => false) = true := by decide

/-- HardwareComputesEval: two bytes with an idle event before each, from a machine with a stale buffer. -/
theorem witness_HardwareComputesEval :
    ({ mk cfgEx payS1 [idleEdge, byteEdge 0x01 false, idleEdge, byteEdge 0x4F true] with n := 0 } : State).n = 0 ∧
      (([idleEdge, byteEdge 0x01 false, idleEdge].map decodeEdge).filter (· ≠ Instr.idle)) =
        [0x01#8].map Instr.accept ∧
      decodeEdge (byteEdge 0x4F true) = .complete 0x4F := by decide

theorem witness_RunResultsAreEvals :
    (loadProgram [.reset cfgEx, .idle, .raw [0x0A]] (mk cfgEx [] [])).n = 0 ∧
      (results 3 (loadProgram [.reset cfgEx, .idle, .raw [0x0A]] (mk cfgEx [] []))).length = 1 := by decide

/-- StaleBytesNeverLeak: two machines that differ in a byte past the frame; the second clause needs a buffer that
lacks a byte of the frame. -/
theorem witness_StaleBytesNeverLeak :
    (mk cfgEx [0x05] []).cfg = ({ mk cfgEx [0x05, 0x77] [] with n := 1 } : State).cfg ∧
      (mk cfgEx [0x05] []).n = ({ mk cfgEx [0x05, 0x77] [] with n := 1 } : State).n ∧
      (∀ i, i < min (mk cfgEx [0x05] []).n.toNat 256 →
        (mk cfgEx [0x05] []).fb.find i = ({ mk cfgEx [0x05, 0x77] [] with n := 1 } : State).fb.find i) ∧
      (nextOf (exec (.complete 0x4F) (mk cfgEx [0x05] []))).isSome = true ∧
      (match exec (.complete 0x4F) { mk cfgEx [] [] with n := 1 } with
        | .fault f => decide (f = .unwrittenByte 0)
        | _ => false) = true := by decide

theorem witness_RunsNeverStop : BufferHolds State.reset ∧ BufferHolds beforeS1 :=
  ⟨fun i hi => absurd hi (by simp [State.reset]), by unfold BufferHolds; decide⟩

/-- StepKeepsInvariant: the invariant holds of a machine that then takes a byte. -/
theorem witness_StepKeepsInvariant :
    Inv (mk cfgEx [] [byteEdge 0x0A false]) ∧ (nextOf (step (mk cfgEx [] [byteEdge 0x0A false]))).isSome = true := by
  refine ⟨⟨by decide, by decide, by unfold BufferHolds; decide, ?_, by decide⟩, by decide⟩
  constructor <;> decide

/-- For every statement about a step that goes on: one for each event. -/
theorem witness_step_answers_next :
    (nextOf (step (mk cfgEx [] [byteEdge 0x0A false]))).isSome = true ∧ (nextOf (step beforeS1)).isSome = true ∧
      (nextOf (step (mk cfgEx [] [idleEdge]))).isSome = true ∧
      (nextOf (step (mk cfgEx [] [resetEdge cfgExCal]))).isSome = true := by decide

/-- EventsWriteOnlyTheirState: its storing clauses at the last index, and their other side past it. -/
theorem witness_EventsWriteOnlyTheirState :
    ({ mk cfgEx [] [byteEdge 1 false] with n := 255 } : State).n.toNat ≤ 255 ∧
      255 < ({ mk cfgEx [] [byteEdge 1 false] with n := 256 } : State).n.toNat ∧
      (nextOf (step { mk cfgEx [] [byteEdge 1 false] with n := 255 })).isSome = true ∧
      (nextOf (step { mk cfgEx [] [byteEdge 1 false] with n := 256 })).isSome = true := by decide

theorem witness_RecordHeldUntilCompletion :
    ∀ e, e ∈ (mk cfgEx [] [byteEdge 1 false, idleEdge, byteEdge 2 true]).pending.take 2 →
      decodeEdge e = .idle ∨ ∃ b, decodeEdge e = .accept b := by
  intro e he
  simp only [mk, List.take_succ_cons, List.take_zero, List.mem_cons, List.not_mem_nil, or_false] at he
  rcases he with rfl | rfl
  · exact .inr ⟨1, by decide⟩
  · exact .inl (by decide)

/-- CounterFollowsEvents: a byte accepted at the counter's last value and at the one before. -/
theorem witness_CounterFollowsEvents :
    ({ mk cfgEx [] [byteEdge 1 false] with n := 257 } : State).n.toNat ≤ 257 ∧
      (nextOf (step { mk cfgEx [] [byteEdge 1 false] with n := 257 })).isSome = true ∧
      ({ mk cfgEx [] [byteEdge 1 false] with n := 256 } : State).n.toNat ≤ 257 ∧
      (nextOf (step { mk cfgEx [] [byteEdge 1 false] with n := 256 })).isSome = true := by decide

theorem witness_PayloadIsTheBuffer :
    (fetchFrame beforeS1.fb beforeS1.n.toNat).toOption = some (0x0A :: 0x4F :: payS1.dropLast) ∧
      7 + 2 < min beforeS1.n.toNat 256 := by decide

theorem witness_BufferReadAfterWrite : 255 < 256 ∧ (254 : Nat) ≠ 255 ∧ 256 ≤ 256 := by decide

theorem witness_SubtypeOnlyNamesItself :
    8 ≤ payS1.tail.length ∧ thCfgOk (mk cfgExCal [] []).cfg = true ∧
      (mk cfgExCal [] []).cfg.thFieldsLen.toNat ≤ 1 + thf.tail.length := by decide

/-- MissingPayloadByteFaults: one byte short of the nine, and one byte short of the configured region's last offset. -/
theorem witness_MissingPayloadByteFaults :
    (payS1.take 8).length < 9 ∧ (thf.take 9).length ≤ (mk cfgExCal [] []).cfg.thOffHumst.toNat := by decide

theorem witness_TrLineRoundTrip :
    (-32767 : Int).natAbs ≤ 32767 ∧ cfgEx.trSubtypes.getLsbD (0x01#8).toNat = true := by decide

theorem witness_ThLineRoundTrip :
    (32767 : Int).natAbs ≤ 32767 ∧ thCfgOk (mk cfgExCal [] []).cfg = true ∧ thDisjoint (mk cfgExCal [] []).cfg := by
  unfold thDisjoint
  decide

end Sys2Proof.Tests
end

/-! SUPPORT. The rules the statements on the scope of the machine (spec 00_scope.md R5, R11) rest on: reads of the buffer
after a write, one equation per event for a step, and that a frame in the buffer can always be completed. -/

namespace Sys2Proof.Machine

/-! ## Reads of the buffer (R11, R40) -/

theorem memRead_put_same (m : Memory) {i : Nat} (b : Byte) (hi : i < fbSize) : memRead (m.put i b) i = .ok b :=
  memRead_eq_ok.mpr ⟨hi, Memory.find_put_same m i b⟩

theorem memRead_put_other (m : Memory) {i k : Nat} (b : Byte) (hk : k ≠ i) :
    memRead (m.put i b) k = memRead m k := by
  simp only [memRead, Memory.find_put_other m b hk]

theorem memRead_of_ge (m : Memory) {k : Nat} (hk : fbSize ≤ k) : memRead m k = .error (.noSuchIndex k) :=
  if_neg (Nat.not_lt.mpr hk)

/-! ## One step, by the event of the coming port sample (R5) -/

@[simp] theorem decode_edge (cfg : Cfg) (e : PortEdge) : decode cfg (.edge e) = .ok (decodeEdge e) := rfl

theorem nextEdge_of_pending_cons {s : State} {e : PortEdge} {rest : List PortEdge} (h : s.pending = e :: rest) :
    nextEdge s = e := by
  simp only [nextEdge, h]

theorem passEdge_of_pending_cons {s : State} {e : PortEdge} {rest : List PortEdge} (h : s.pending = e :: rest) :
    passEdge s = { s with pending := rest } := by
  simp only [passEdge, h, List.tail_cons]

theorem step_of_accept {s : State} {b : Byte} (h : decodeEdge (nextEdge s) = .accept b) :
    step s = .next (dropValid (takeByte b (passEdge s))) := by
  rw [step, h]; rfl

theorem step_of_complete {s : State} {b : Byte} (h : decodeEdge (nextEdge s) = .complete b) :
    step s = completeFrame (takeByte b (passEdge s)) := by
  rw [step, h]; rfl

theorem step_of_idle {s : State} (h : decodeEdge (nextEdge s) = .idle) : step s = .next (dropValid (passEdge s)) := by
  rw [step, h]; rfl

theorem step_of_reset {s : State} {straps : Cfg} (h : decodeEdge (nextEdge s) = .reset straps) :
    step s = .next (clearOutputs (latchCfg straps (passEdge s))) := by
  rw [step, h]; rfl

/-! ## The current frame stays in the buffer -/

/-- Whether the buffer holds the current frame is a matter of FB and N alone. -/
theorem BufferHolds.congr {s t : State} (hs : BufferHolds s) (hfb : t.fb = s.fb) (hn : t.n = s.n) :
    BufferHolds t := by
  unfold BufferHolds
  rw [hfb, hn]
  exact hs

theorem bufferHolds_of_n_eq_zero {s : State} (hn : s.n = 0) : BufferHolds s := by
  intro i hi
  simp [hn] at hi

/-- A byte taken joins the current frame; past index 255 the buffer is full already (R82). -/
theorem BufferHolds.takeByte {s : State} (hs : BufferHolds s) (b : Byte) : BufferHolds (takeByte b s) := by
  intro i hi
  rw [takeByte_n_toNat] at hi
  rw [takeByte_find]
  split
  · rfl
  · exact hs i (by omega)

/-! ## A frame in the buffer can always be completed (R46, R90) -/

/-- `Eval` answers a record for what a fetch hands it: all bytes of a frame of at most 256, or the first 256 of an
oversize frame, which is rejected for its length. -/
theorem evalFrame_total_of_length {n : Nat} {bytes : List Byte} (cfg : Cfg) (h : bytes.length = min n fbSize) :
    ∃ o, evalFrame cfg n bytes = .ok o := by
  by_cases hn : n ≤ fbSize
  · obtain rfl : bytes.length = n := by omega
    exact evalFrame_total cfg bytes
  · simp only [fbSize] at h hn
    obtain _ | ⟨l, _ | ⟨pt, payload⟩⟩ := bytes
    · rw [List.length_nil] at h; omega
    · rw [List.length_singleton] at h; omega
    · exact ⟨errorRecord ⟨.lengthMismatch, pt⟩, by rw [evalFrame, selectDecoder_long (by omega)]⟩

theorem completeFrame_total {s : State} (hs : BufferHolds s) : ∃ o, completeFrame s = .next (finishFrame o s) := by
  obtain ⟨bytes, hfetch⟩ := fetchFrame_total hs
  obtain ⟨o, heval⟩ := evalFrame_total_of_length s.cfg (fetchFrame_eq_ok.mp hfetch).1
  exact ⟨o, by rw [completeFrame_eq hfetch, heval]⟩

/-- Progress and preservation: from a state whose buffer holds the current frame, every event is taken, and the buffer
holds the current frame again. -/
theorem step_total_of_bufferHolds {s : State} (hs : BufferHolds s) : ∃ t, step s = .next t ∧ BufferHolds t := by
  have hpass : BufferHolds (passEdge s) := hs.congr rfl rfl
  rcases decodeEdge_cases (nextEdge s) with ⟨b, he⟩ | ⟨b, he⟩ | he | ⟨straps, he⟩
  · exact ⟨_, step_of_accept he, (hpass.takeByte b).congr rfl rfl⟩
  · obtain ⟨o, ho⟩ := completeFrame_total (hpass.takeByte b)
    exact ⟨_, (step_of_complete he).trans ho, bufferHolds_of_n_eq_zero rfl⟩
  · exact ⟨_, step_of_idle he, hpass.congr rfl rfl⟩
  · exact ⟨_, step_of_reset he, bufferHolds_of_n_eq_zero rfl⟩

/-- A property from which every step goes on and which it keeps carries a run of any length through. -/
theorem run_total_of_step_total {P : State → Prop} (hstep : ∀ s, P s → ∃ t, step s = .next t ∧ P t) (k : Nat)
    {s : State} (hs : P s) : ∃ t, core.run k s = .next t ∧ P t := by
  induction k generalizing s with
  | zero => exact ⟨s, core_run_zero s, hs⟩
  | succ k ih =>
    obtain ⟨s', hnext, hs'⟩ := hstep s hs
    rw [core_run_succ_of_step k hnext]
    exact ih hs'

/-! ## The statements -/

/-- Settles O33: each step goes on and keeps the current frame in the buffer, so runs of every length do. -/
theorem runsNeverStop : Obligations.RunsNeverStop := by
  intro k s hs
  exact run_total_of_step_total (fun _ => step_total_of_bufferHolds) k hs

/-- Settles O4: the coming sample is the head of the list, and passing it leaves the tail. -/
theorem stepRunsDecodedEvent : Obligations.StepRunsDecodedEvent := by
  intro cfg s e rest i hpending hdecode _
  rw [decode_edge, Except.ok.injEq] at hdecode
  rw [step, nextEdge_of_pending_cons hpending, passEdge_of_pending_cons hpending, hdecode]

/-- Settles O43, by the read rules of the buffer. -/
theorem bufferReadAfterWrite : Obligations.BufferReadAfterWrite :=
  ⟨fun m _ _ b hi => ⟨memRead_put_same m b hi, memRead_put_other m b⟩, fun m _ hk => memRead_of_ge m hk⟩

end Sys2Proof.Machine

/-! SUPPORT. The statements on the machine's state (spec 10_state.md): what each event writes, what every record the
machine writes looks like, and that a completion depends on the current frame alone. -/

namespace Sys2Proof.Machine

/-! ## Records the rules allow (R21, R22, R66, R116, R130, R140, R143) -/

/-- The pattern 0x8000 would need a magnitude of 32768, and a magnitude has 15 bits (R66). -/
theorem signMag_ne_0x8000 (h l : Byte) : signMag h l ≠ 0x8000#16 := by
  intro heq
  have hnat : (signMag h l).toNat = 32768 := by rw [heq]; rfl
  have hl := l.isLt
  rw [signMag_toNat] at hnat
  split at hnat <;> omega

theorem errCode_toNat_le (e : FrameError) : (errCode e).toNat ≤ 5 := by
  cases e <;> decide

/-- A record of kind NONE is allowed when its error code exists and its reading is all 0. -/
theorem RecordOk.of_kind_none {cfg : Cfg} {o : OutRecord} (herr : o.outErr.toNat ≤ 5) (hkind : o.outKind = 0)
    (hzero : o.reading = Reading.zero) : RecordOk cfg o where
  err_le := herr
  kind_le := by simp [hkind]
  err_kind _ := hkind
  none_zero _ := hzero
  rain h := by simp [hkind] at h
  hum h := by simp [hkind] at h
  temp_ne := by rw [hzero]; decide

theorem recordOk_cleared (cfg : Cfg) : RecordOk cfg OutRecord.cleared :=
  .of_kind_none (Nat.zero_le 5) rfl rfl

theorem recordOk_errorRecord (cfg : Cfg) (r : Reject) : RecordOk cfg (errorRecord r) :=
  .of_kind_none (errCode_toNat_le r.kind) rfl rfl

/-- The record of a Temp/Rain frame that is in the dispatch table (R101, R110, R116). -/
theorem recordOk_tempRainRecord {cfg : Cfg} {p : List Byte} {o : OutRecord} (hlen : 9 ≤ p.length)
    (hsub : subtypeListed cfg.trSubtypes p = true) (ho : tempRainRecord cfg.ptTr p = .ok o) : RecordOk cfg o := by
  rw [subtypeListed_eq (by omega)] at hsub
  rw [tempRainRecord_of_length hlen] at ho
  cases ho
  exact {
    err_le := by simp
    kind_le := by simp
    err_kind := by simp
    none_zero := by simp
    rain := fun _ => ⟨rfl, rfl, rfl, rfl, hsub⟩
    hum := by simp
    temp_ne := signMag_ne_0x8000 _ _ }

/-- The record of a Temp/Humidity frame that is in the dispatch table of a calibrated machine (R101, R102, R130). -/
theorem recordOk_tempHumRecord {cfg : Cfg} {p : List Byte} {o : OutRecord} (hne : cfg.ptTh ≠ cfg.ptTr)
    (hcal : thEffCal cfg = true) (hlen : cfg.thFieldsLen.toNat ≤ p.length)
    (hsub : subtypeListed cfg.thSubtypes p = true) (ho : tempHumRecord cfg cfg.ptTh p = .ok o) : RecordOk cfg o := by
  have hok : thCfgOk cfg = true := (Bool.and_eq_true_iff.mp hcal).2
  have hpos : 1 ≤ cfg.thFieldsLen.toNat := (thCfgOk_iff.mp hok).1
  rw [subtypeListed_eq (by omega)] at hsub
  rw [tempHumRecord_of_length hok hlen] at ho
  cases ho
  exact {
    err_le := by simp
    kind_le := by simp
    err_kind := by simp
    none_zero := by simp
    rain := by simp
    hum := fun _ => ⟨rfl, rfl, hne, hcal, hsub⟩
    temp_ne := signMag_ne_0x8000 _ _ }

/-- Every record that `Eval` answers on the bytes a fetch hands it is allowed: a rejected frame gives an error record,
and the stages a selected frame has passed say the rest. -/
theorem recordOk_of_evalFrame {cfg : Cfg} {n : Nat} {bytes : List Byte} {o : OutRecord}
    (hlen : bytes.length = min n fbSize) (ho : evalFrame cfg n bytes = .ok o) : RecordOk cfg o := by
  unfold evalFrame at ho
  cases hsel : selectDecoder cfg n bytes with
  | error r =>
    rw [hsel] at ho
    cases ho
    exact recordOk_errorRecord cfg r
  | ok sel =>
    rw [hsel] at ho
    replace ho : selectedRecord cfg sel = .ok o := ho
    obtain ⟨l, rfl, hl, h9, hfam⟩ := selectDecoder_eq_ok.mp hsel
    have hpayload : sel.payload.length = n - 2 := by
      have hlt := l.isLt
      simp only [List.length_cons, fbSize] at hlen
      omega
    rcases hfam with ⟨hd, hpt, h11, hsub⟩ | ⟨hd, hne, hpt, hcal, hmin, -, hsub⟩ <;>
      simp only [selectedRecord, hd, hpt] at ho
    · exact recordOk_tempRainRecord (by omega) hsub ho
    · exact recordOk_tempHumRecord (hpt ▸ hne) hcal (by omega) hsub ho

/-- A completion that answers a next state leaves an allowed record. -/
theorem recordOk_of_completeFrame {s t : State} (h : completeFrame s = .next t) : RecordOk s.cfg t.out := by
  obtain ⟨bytes, o, hfetch, heval, rfl⟩ := completeFrame_next h
  exact recordOk_of_evalFrame (fetchFrame_eq_ok.mp hfetch).1 heval

/-! ## The invariant, event by event -/

theorem Inv.passEdge {s : State} (hs : Inv s) : Inv (passEdge s) :=
  ⟨hs.canonical, hs.counter, hs.holds, hs.record, hs.strobe⟩

theorem Inv.dropValid {s : State} (hs : Inv s) : Inv (dropValid s) :=
  ⟨hs.canonical, hs.counter, hs.holds, hs.record, nofun⟩

theorem Inv.accept {s : State} (hs : Inv s) (b : Byte) : Inv (Machine.dropValid (takeByte b s)) where
  canonical := takeByte_wf hs.canonical
  counter := by
    rw [dropValid_n, takeByte_n_toNat]
    exact Nat.min_le_right _ _
  holds := hs.holds.takeByte b
  record := hs.record
  strobe := nofun

theorem Inv.complete {s t : State} (hs : Inv s) {b : Byte} (h : completeFrame (takeByte b s) = .next t) : Inv t := by
  have hrecord := recordOk_of_completeFrame h
  obtain ⟨_, o, -, -, rfl⟩ := completeFrame_next h
  exact {
    canonical := takeByte_wf hs.canonical
    counter := Nat.zero_le 257
    holds := bufferHolds_of_n_eq_zero rfl
    record := hrecord
    strobe := fun _ => rfl }

theorem Inv.reset {s : State} (hs : Inv s) (straps : Cfg) : Inv (clearOutputs (latchCfg straps s)) where
  canonical := hs.canonical
  counter := Nat.zero_le 257
  holds := bufferHolds_of_n_eq_zero rfl
  record := recordOk_cleared straps
  strobe := nofun

/-! ## A completion depends on CFG, N and the current frame's bytes alone (R26, R46) -/

/-- COMPLETE takes its byte, then ends the frame (R51, R83). -/
theorem exec_complete (b : Byte) (s : State) : exec (.complete b) s = completeFrame (takeByte b s) := rfl

theorem completeFrame_of_fetch_error {s : State} {f : Fault} (h : fetchFrame s.fb s.n.toNat = .error f) :
    completeFrame s = .fault f := by
  simp only [completeFrame, h]

theorem completeFrame_of_eval_ok {s : State} {bytes : List Byte} {o : OutRecord}
    (hfetch : fetchFrame s.fb s.n.toNat = .ok bytes) (heval : evalFrame s.cfg s.n.toNat bytes = .ok o) :
    completeFrame s = .next (finishFrame o s) := by
  rw [completeFrame_eq hfetch, heval]

theorem completeFrame_of_eval_error {s : State} {bytes : List Byte} {f : Fault}
    (hfetch : fetchFrame s.fb s.n.toNat = .ok bytes) (heval : evalFrame s.cfg s.n.toNat bytes = .error f) :
    completeFrame s = .fault f := by
  rw [completeFrame_eq hfetch, heval]

/-- Two machines that agree on CFG, N and what a fetch of the frame answers end the frame with one record, or stop with
one fault. -/
theorem completeFrame_congr {s s' : State} (hcfg : s.cfg = s'.cfg) (hn : s.n = s'.n)
    (hfetch : fetchFrame s.fb s.n.toNat = fetchFrame s'.fb s'.n.toNat) :
    (∃ o, completeFrame s = .next (finishFrame o s) ∧ completeFrame s' = .next (finishFrame o s')) ∨
      ∃ f, completeFrame s = .fault f ∧ completeFrame s' = .fault f := by
  cases hbytes : fetchFrame s.fb s.n.toNat with
  | error f =>
    exact .inr ⟨f, completeFrame_of_fetch_error hbytes, completeFrame_of_fetch_error (hfetch.symm.trans hbytes)⟩
  | ok bytes =>
    have hbytes' := hfetch.symm.trans hbytes
    have hsame : evalFrame s'.cfg s'.n.toNat bytes = evalFrame s.cfg s.n.toNat bytes := by rw [hcfg, hn]
    cases heval : evalFrame s.cfg s.n.toNat bytes with
    | error f =>
      exact .inr ⟨f, completeFrame_of_eval_error hbytes heval,
        completeFrame_of_eval_error hbytes' (hsame.trans heval)⟩
    | ok o =>
      exact .inl ⟨o, completeFrame_of_eval_ok hbytes heval, completeFrame_of_eval_ok hbytes' (hsame.trans heval)⟩

/-- The byte taken joins both frames at the same index, so frames that agreed still agree (R82). -/
theorem takeByte_find_congr {s s' : State} (b : Byte) (hn : s.n = s'.n)
    (hfb : ∀ i, i < min s.n.toNat 256 → s.fb.find i = s'.fb.find i) :
    ∀ i, i < min (takeByte b s).n.toNat 256 → (takeByte b s).fb.find i = (takeByte b s').fb.find i := by
  intro i hi
  rw [takeByte_n_toNat] at hi
  rw [takeByte_find, takeByte_find, ← hn]
  split
  · rfl
  · exact hfb i (by omega)

theorem takeByte_n_congr {s s' : State} (b : Byte) (hn : s.n = s'.n) : (takeByte b s).n = (takeByte b s').n := by
  rw [takeByte_n, takeByte_n, hn]

/-! ## Events that complete no frame (R30, R85) -/

/-- Past the listed samples the ports carry an IDLE event (log entry 2). -/
theorem decodeEdge_nextEdge_of_pending_nil {s : State} (h : s.pending = []) : decodeEdge (nextEdge s) = .idle := by
  simp only [nextEdge, h]
  rfl

/-- An accepted byte or an idle event is always taken, and leaves OUT less the strobe and CFG as they were. -/
theorem step_holds_record {s : State}
    (h : decodeEdge (nextEdge s) = .idle ∨ ∃ b, decodeEdge (nextEdge s) = .accept b) :
    ∃ t, step s = .next t ∧ t.out = s.out ∧ t.cfg = s.cfg ∧ t.pending = s.pending.tail := by
  rcases h with he | ⟨b, he⟩
  · exact ⟨_, step_of_idle he, rfl, rfl, rfl⟩
  · exact ⟨_, step_of_accept he, rfl, rfl, rfl⟩

/-! ## The statements -/

/-- Settles O34: each of the four events keeps the invariant. -/
theorem stepKeepsInvariant : Obligations.StepKeepsInvariant := by
  intro s t hs h
  rcases step_next h with ⟨b, -, rfl⟩ | ⟨b, _, -, hcomplete, -⟩ | ⟨-, rfl⟩ | ⟨straps, -, rfl⟩
  · exact hs.passEdge.accept b
  · exact hs.passEdge.complete hcomplete
  · exact hs.passEdge.dropValid
  · exact hs.passEdge.reset straps

/-- Settles O35. -/
theorem resetHasInvariant : Obligations.ResetHasInvariant where
  canonical := reset_fb_wf
  counter := Nat.zero_le 257
  holds := bufferHolds_of_n_eq_zero rfl
  record := recordOk_cleared Config.straps
  strobe := nofun

/-- Settles O36, field by field. -/
theorem resetStateAsListed : Obligations.ResetStateAsListed :=
  ⟨rfl, rfl, rfl, rfl, rfl, rfl, rfl, fun _ => rfl⟩

/-- Settles O32: the two machines still agree on the frame once its last byte is taken, so a fetch answers both the
same bytes. -/
theorem staleBytesNeverLeak : Obligations.StaleBytesNeverLeak := by
  intro s s' b hcfg hn hfb
  have hn' := takeByte_n_congr b hn
  have hfetch : fetchFrame (takeByte b s).fb (takeByte b s).n.toNat =
      fetchFrame (takeByte b s').fb (takeByte b s').n.toNat := by
    rw [← hn']
    exact fetchFrame_congr (takeByte_find_congr b hn hfb)
  rw [exec_complete, exec_complete]
  rcases completeFrame_congr (s := takeByte b s) (s' := takeByte b s') hcfg hn' hfetch with ⟨o, ho, ho'⟩ | ⟨f, hf, hf'⟩
  · rw [ho, ho']
    refine ⟨?_, nofun⟩
    rintro _ ⟨⟩
    exact ⟨_, rfl, rfl, rfl, rfl⟩
  · rw [hf, hf']
    exact ⟨nofun, fun _ h => h⟩

/-- Settles O37: of the four events only RESET latches. -/
theorem onlyResetChangesConfig : Obligations.OnlyResetChangesConfig := by
  intro s t h
  rcases step_next h with ⟨b, he, rfl⟩ | ⟨b, o, he, -, rfl⟩ | ⟨he, rfl⟩ | ⟨straps, he, rfl⟩ <;> rw [he]
  · exact takeByte_cfg b (passEdge s)
  · exact takeByte_cfg b (passEdge s)
  · exact passEdge_cfg s
  · exact latchCfg_cfg straps (passEdge s)

/-- Settles O38: the effect of each event, field by field; the buffer by what it lists after a byte was taken. -/
theorem eventsWriteOnlyTheirState : Obligations.EventsWriteOnlyTheirState := by
  intro s t h
  have hstored (b : Byte) (hroom : s.n.toNat ≤ 255) : (takeByte b (passEdge s)).fb.find s.n.toNat = some b := by
    rw [takeByte_find]
    exact if_pos ⟨rfl, hroom⟩
  have hkept (b : Byte) (i : Nat) (hi : i ≠ s.n.toNat ∨ 255 < s.n.toNat) :
      (takeByte b (passEdge s)).fb.find i = s.fb.find i := by
    rw [takeByte_find]
    exact if_neg fun ⟨heq, hroom⟩ => hi.elim (· heq) (Nat.not_lt.mpr hroom)
  rcases step_next h with ⟨b, he, rfl⟩ | ⟨b, o, he, -, rfl⟩ | ⟨he, rfl⟩ | ⟨straps, he, rfl⟩ <;> rw [he]
  · exact ⟨rfl, takeByte_n_toNat b _, rfl, hstored b, hkept b, rfl, rfl⟩
  · exact ⟨rfl, rfl, rfl, hstored b, hkept b, rfl⟩
  · exact ⟨rfl, rfl, rfl, rfl, rfl, rfl⟩
  · exact ⟨rfl, rfl, rfl, rfl, rfl, rfl⟩

/-- Settles O39: COMPLETE sets the strobe, and each other event drops it. -/
theorem strobeMarksCompletion : Obligations.StrobeMarksCompletion := by
  intro s t h
  rcases step_next h with ⟨b, he, rfl⟩ | ⟨b, o, he, -, rfl⟩ | ⟨he, rfl⟩ | ⟨straps, he, rfl⟩ <;> rw [he]
  · simp only [dropValid_outValid, Bool.false_eq_true, reduceCtorEq, exists_false]
  · exact ⟨fun _ => ⟨b, rfl⟩, fun _ => finishFrame_outValid o _⟩
  · simp only [dropValid_outValid, Bool.false_eq_true, reduceCtorEq, exists_false]
  · simp only [clearOutputs_outValid, Bool.false_eq_true, reduceCtorEq, exists_false]

/-- Settles O41: a byte taken counts to at most 257, and the other events set the counter or leave it. -/
theorem counterFollowsEvents : Obligations.CounterFollowsEvents := by
  intro s t hle h
  rcases step_next h with ⟨b, he, rfl⟩ | ⟨b, o, he, -, rfl⟩ | ⟨he, rfl⟩ | ⟨straps, he, rfl⟩ <;> rw [he]
  · have hcount := takeByte_n_toNat b (passEdge s)
    rw [passEdge_n] at hcount
    simp only [dropValid_n]
    split <;> omega
  · exact rfl
  · exact rfl
  · exact rfl

/-- Settles O40, by induction on the number of steps: the coming event completes nothing, and the samples of the
remaining steps are among those of the whole run. -/
theorem recordHeldUntilCompletion : Obligations.RecordHeldUntilCompletion := by
  intro k
  induction k with
  | zero => exact fun s _ => ⟨s, core_run_zero s, rfl, rfl⟩
  | succ k ih =>
    intro s hquiet
    have hnext : decodeEdge (nextEdge s) = .idle ∨ ∃ b, decodeEdge (nextEdge s) = .accept b := by
      cases hp : s.pending with
      | nil => exact .inl (decodeEdge_nextEdge_of_pending_nil hp)
      | cons e rest =>
        rw [nextEdge_of_pending_cons hp]
        exact hquiet e (by simp [hp])
    obtain ⟨s', hstep, hout, hcfg, hpending⟩ := step_holds_record hnext
    have htail : s'.pending.take k = (s.pending.take (k + 1)).tail := by
      rw [hpending, List.tail_take_eq_take_tail, Nat.add_sub_cancel]
    have hquiet' : ∀ e, e ∈ s'.pending.take k → decodeEdge e = .idle ∨ ∃ b, decodeEdge e = .accept b := by
      intro e he
      rw [htail] at he
      exact hquiet e (List.mem_of_mem_tail he)
    obtain ⟨t, hrun, hout', hcfg'⟩ := ih s' hquiet'
    exact ⟨t, (core_run_succ_of_step k hstep).trans hrun, hout'.trans hout, hcfg'.trans hcfg⟩

end Sys2Proof.Machine

/-! SUPPORT. The statements on the frame buffer as memory (spec 20_memory.md): what the machine reads of a payload, what
a fetched frame is, and that the frame gathered in the buffer is evaluated as `Eval` of its bytes. -/

namespace Sys2Proof.Machine

/-! ## A fetched frame is the buffer, byte for byte (R40) -/

theorem memRead_of_fetchFrame {m : Memory} {n i : Nat} {bytes : List Byte} (h : fetchFrame m n = .ok bytes)
    (hi : i < min n fbSize) : memRead m i = .ok (bytes.getD i 0) :=
  memRead_eq_ok.mpr ⟨by omega, (fetchFrame_eq_ok.mp h).2 i hi⟩

theorem getD_drop_two (bytes : List Byte) (k : Nat) : (bytes.drop 2).getD k 0 = bytes.getD (k + 2) 0 := by
  simp only [List.getD_eq_getElem?_getD, List.getElem?_drop, Nat.add_comm]

/-! ## The payload offsets a computation reads (R64 to R68) -/

/-- `x` reads the payload at the offsets `ks` in that order and stops on the first one that the payload lacks. -/
structure Reads {α : Type} (p : List Byte) (ks : List Nat) (x : Except Fault α) : Prop where
  /-- With every offset in the payload it answers. -/
  answers : ks.find? (p.length ≤ ·) = none → ∃ a, x = .ok a
  /-- The first missing offset is the one the fault names. -/
  faults : ∀ k, ks.find? (p.length ≤ ·) = some k → x = .error (.beyondPayload k)

theorem u8_of_ge {p : List Byte} {k : Nat} (h : p.length ≤ k) : u8 p k = .error (.beyondPayload k) := by
  rw [u8, List.getElem?_eq_none h]

theorem reads_u8 (p : List Byte) (k : Nat) : Reads p [k] (u8 p k) := by
  by_cases h : p.length ≤ k
  · exact ⟨by simp [h], by simpa [h] using u8_of_ge h⟩
  · exact ⟨fun _ => ⟨_, u8_of_lt (Nat.lt_of_not_le h)⟩, by simp [h]⟩

theorem reads_ok {α : Type} (p : List Byte) (a : α) : Reads p [] (.ok a) :=
  ⟨fun _ => ⟨a, rfl⟩, nofun⟩

theorem ok_bind {α β : Type} (a : α) (f : α → Except Fault β) : (Except.ok a >>= f) = f a := rfl

theorem error_bind {α β : Type} (e : Fault) (f : α → Except Fault β) : (Except.error e >>= f) = .error e := rfl

/-- One computation after another reads the offsets of the first, then those of the second. -/
theorem Reads.bind {α β : Type} {p : List Byte} {ks ls : List Nat} {x : Except Fault α} {f : α → Except Fault β}
    (hx : Reads p ks x) (hf : ∀ a, Reads p ls (f a)) : Reads p (ks ++ ls) (x >>= f) := by
  cases hfind : ks.find? (p.length ≤ ·) with
  | some k =>
    rw [hx.faults k hfind]
    exact ⟨by simp [List.find?_append, hfind], by simp [List.find?_append, hfind, error_bind]⟩
  | none =>
    obtain ⟨a, rfl⟩ := hx.answers hfind
    rw [ok_bind]
    exact ⟨by simpa [List.find?_append, hfind] using (hf a).answers,
      by simpa [List.find?_append, hfind] using (hf a).faults⟩

theorem Reads.map {α β : Type} {p : List Byte} {ks : List Nat} {x : Except Fault α} (hx : Reads p ks x) (f : α → β) :
    Reads p ks (x.map f) where
  answers hfind := by
    obtain ⟨a, rfl⟩ := hx.answers hfind
    exact ⟨f a, rfl⟩
  faults k hfind := by
    rw [hx.faults k hfind]
    rfl

theorem reads_u16be (p : List Byte) (k : Nat) : Reads p [k, k + 1] (u16be p k) :=
  (reads_u8 p k).bind fun h => (reads_u8 p (k + 1)).bind fun l => reads_ok p (be16 h l)

theorem reads_sm16 (p : List Byte) (k : Nat) : Reads p [k, k + 1] (sm16 p k) :=
  (reads_u8 p k).bind fun h => (reads_u8 p (k + 1)).bind fun l => reads_ok p (signMag h l)

theorem reads_nibLo (p : List Byte) (k : Nat) : Reads p [k] (nibLo p k) := (reads_u8 p k).map lowNibble

theorem reads_nibHi (p : List Byte) (k : Nat) : Reads p [k] (nibHi p k) := (reads_u8 p k).map highNibble

theorem reads_bits2 (p : List Byte) (k sh : Nat) : Reads p [k] (bits2 p k sh) := (reads_u8 p k).map (slice2 · sh)

/-- TEMP_RAIN reads offsets 0 to 8, the status byte twice (R110, R114). -/
theorem reads_tempRainRecord (pt : Byte) (p : List Byte) :
    Reads p [0, 1, 2, 3, 4, 5, 6, 7, 8, 8] (tempRainRecord pt p) :=
  (reads_u8 p 0).bind fun _ => (reads_u8 p 1).bind fun _ => (reads_u16be p 2).bind fun _ =>
    (reads_sm16 p 4).bind fun _ => (reads_u16be p 6).bind fun _ => (reads_nibLo p 8).bind fun _ =>
      (reads_nibHi p 8).bind fun _ => reads_ok p _

/-- TEMP_HUM reads the subtype and the configured offsets (R120). -/
theorem reads_tempHumRecord (cfg : Cfg) (pt : Byte) (p : List Byte) :
    Reads p [0, cfg.thOffSeq.toNat, cfg.thOffChan.toNat, cfg.thOffId.toNat, cfg.thOffId.toNat + 1,
      cfg.thOffTemp.toNat, cfg.thOffTemp.toNat + 1, cfg.thOffHum.toNat, cfg.thOffHumst.toNat,
      cfg.thOffStatus.toNat, cfg.thOffStatus.toNat] (tempHumRecord cfg pt p) :=
  (reads_u8 p 0).bind fun _ => (reads_u8 p _).bind fun _ => (reads_u8 p _).bind fun _ =>
    (reads_u16be p _).bind fun _ => (reads_sm16 p _).bind fun _ => (reads_u8 p _).bind fun _ =>
      (reads_bits2 p _ _).bind fun _ => (reads_nibLo p _).bind fun _ => (reads_nibHi p _).bind fun _ => reads_ok p _

/-- A computation that reads an offset the payload lacks stops on some offset the payload lacks. -/
theorem Reads.faults_of_mem {α : Type} {p : List Byte} {ks : List Nat} {x : Except Fault α} (hx : Reads p ks x) {k : Nat}
    (hk : k ∈ ks) (hlack : p.length ≤ k) : ∃ j, p.length ≤ j ∧ x = .error (.beyondPayload j) := by
  have hsome : (ks.find? (p.length ≤ ·)).isSome := List.find?_isSome.mpr ⟨k, hk, decide_eq_true hlack⟩
  obtain ⟨j, hj⟩ := Option.isSome_iff_exists.mp hsome
  exact ⟨j, by simpa using List.find?_some hj, hx.faults j hj⟩

theorem exec_tempRain_of_error {pt : Byte} {p : List Byte} {f : Fault} (s : State)
    (h : tempRainRecord pt p = .error f) : exec (.tempRain pt p) s = .fault f := by
  simp only [exec, execTempRain, h]

theorem exec_tempHum_of_error {pt : Byte} {p : List Byte} {f : Fault} (s : State)
    (h : tempHumRecord s.cfg pt p = .error f) : exec (.tempHum pt p) s = .fault f := by
  simp only [exec, execTempHum, h]

/-! ## The bytes of the current frame, as they arrived -/

/-- The current frame of `s` is `got`: N counts its bytes up to 257, and FB lists the first 256 of them (R23, R82). -/
structure Gathered (s : State) (got : List Byte) : Prop where
  counter : s.n.toNat = min got.length 257
  listed : ∀ i, i < min got.length 256 → s.fb.find i = some (got.getD i 0)

theorem gathered_nil {s : State} (h : s.n = 0) : Gathered s [] where
  counter := by simp [h]
  listed i hi := by simp at hi

/-- The current frame is a matter of FB and N alone. -/
theorem Gathered.congr {s t : State} {got : List Byte} (hs : Gathered s got) (hfb : t.fb = s.fb) (hn : t.n = s.n) :
    Gathered t got where
  counter := by rw [hn, hs.counter]
  listed := by
    rw [hfb]
    exact hs.listed

/-- A byte taken is the next byte of the current frame, also when the buffer has no room for it (R82). -/
theorem Gathered.takeByte {s : State} {got : List Byte} (hs : Gathered s got) (b : Byte) :
    Gathered (takeByte b s) (got ++ [b]) where
  counter := by
    rw [takeByte_n_toNat, hs.counter, List.length_append, List.length_singleton]
    omega
  listed i hi := by
    rw [List.length_append, List.length_singleton] at hi
    rw [takeByte_find, hs.counter]
    by_cases hlast : i = got.length
    · subst hlast
      rw [if_pos (by omega), List.getD_append_right _ _ _ _ (Nat.le_refl _), Nat.sub_self, List.getD_cons_zero]
    · rw [if_neg (by omega), hs.listed i (by omega), List.getD_append _ _ _ _ (by omega)]

/-- A fetch answers the frame's bytes, of an oversize frame the first 256. -/
theorem Gathered.fetchFrame {s : State} {got : List Byte} (hs : Gathered s got) :
    fetchFrame s.fb s.n.toNat = .ok (got.take fbSize) := by
  have hroom : min (min got.length 257) fbSize = min got.length 256 := by
    rw [fbSize]
    omega
  rw [fetchFrame_eq_ok, hs.counter, hroom]
  refine ⟨by rw [List.length_take, fbSize, Nat.min_comm], fun i hi => ?_⟩
  rw [hs.listed i hi, List.getD_eq_getElem?_getD, List.getD_eq_getElem?_getD,
    List.getElem?_take_of_lt (by rw [fbSize]; omega)]

/-- What the counter and the buffer hold of a frame is evaluated as the whole frame: an oversize frame is a length
mismatch either way, with the packet type of its second byte (R92(d), R166). -/
theorem evalFrame_gathered (cfg : Cfg) (got : List Byte) :
    evalFrame cfg (min got.length 257) (got.take fbSize) = evalBytes cfg got := by
  by_cases hlen : got.length ≤ fbSize
  · rw [List.take_of_length_le hlen, Nat.min_eq_left (show got.length ≤ 257 from Nat.le_succ_of_le hlen), evalBytes]
  · rw [fbSize] at hlen ⊢
    obtain _ | ⟨l, _ | ⟨pt, payload⟩⟩ := got
    · simp at hlen
    · simp at hlen
    · simp only [evalBytes, evalFrame, List.take_succ_cons]
      rw [selectDecoder_long (by omega), selectDecoder_long (by omega)]

/-- The end of a frame writes `Eval` of the bytes that arrived (R47, R83). -/
theorem Gathered.completeFrame {s : State} {got : List Byte} (hs : Gathered s got) :
    ∃ o, evalBytes s.cfg got = .ok o ∧ completeFrame s = .next (finishFrame o s) := by
  obtain ⟨o, ho⟩ := evalBytes_total s.cfg got
  refine ⟨o, ho, completeFrame_of_eval_ok hs.fetchFrame ?_⟩
  rw [hs.counter, evalFrame_gathered, ho]

/-! ## Events that gather a frame -/

/-- Events that are, idle ones taken out, ACCEPT of each byte of a list: the first is idle, or takes the list's first
byte. -/
theorem events_cons {i : Instr} {is : List Instr} {first : List Byte}
    (h : (i :: is).filter (· ≠ Instr.idle) = first.map Instr.accept) :
    (i = .idle ∧ is.filter (· ≠ Instr.idle) = first.map Instr.accept) ∨
      ∃ b first', i = .accept b ∧ first = b :: first' ∧ is.filter (· ≠ Instr.idle) = first'.map Instr.accept := by
  by_cases hi : i = .idle
  · exact .inl ⟨hi, by simpa [hi] using h⟩
  · rw [List.filter_cons_of_pos (by simpa using hi)] at h
    obtain ⟨b, first', rfl, rfl, htail⟩ := List.map_eq_cons_iff.mp h.symm
    exact .inr ⟨b, first', rfl, rfl, htail.symm⟩

/-- A run over events that take the bytes `first`, idle events among them, goes through and appends `first` to the
current frame. -/
theorem run_gathers (lead rest : List PortEdge) (k : Nat) {s : State} {got first : List Byte} (hs : Gathered s got)
    (hpending : s.pending = lead ++ rest)
    (hevents : (lead.map decodeEdge).filter (· ≠ Instr.idle) = first.map Instr.accept) :
    ∃ t : State, core.run (lead.length + k) s = core.run k t ∧ Gathered t (got ++ first) ∧ t.cfg = s.cfg ∧
      t.pending = rest := by
  induction lead generalizing s got first with
  | nil =>
    obtain rfl : first = [] := by simpa using hevents.symm
    exact ⟨s, by rw [List.length_nil, Nat.zero_add], by rwa [List.append_nil], rfl, hpending⟩
  | cons e lead ih =>
    have hnext : nextEdge s = e := nextEdge_of_pending_cons hpending
    have htail : (passEdge s).pending = lead ++ rest := by rw [passEdge_pending, hpending]; rfl
    have hpass : Gathered (passEdge s) got := hs.congr rfl rfl
    rw [List.length_cons, Nat.add_right_comm]
    rcases events_cons hevents with ⟨he, hlead⟩ | ⟨b, first', he, rfl, hlead⟩
    · rw [core_run_succ_of_step _ (step_of_idle (hnext ▸ he))]
      exact ih (s := dropValid (passEdge s)) (hpass.congr rfl rfl) htail hlead
    · rw [core_run_succ_of_step _ (step_of_accept (hnext ▸ he)), List.append_cons]
      exact ih (s := dropValid (takeByte b (passEdge s))) ((hpass.takeByte b).congr rfl rfl) htail hlead

/-! ## The statements -/

/-- Settles O42: a payload offset is a frame index less the two header bytes. -/
theorem payloadIsTheBuffer : Obligations.PayloadIsTheBuffer := by
  intro m n bytes k hfetch hk
  rw [getD_drop_two]
  exact memRead_of_fetchFrame hfetch hk

/-- Settles O19, by the offsets that each of the two instructions reads, in the order of its reads. -/
theorem missingPayloadByteFaults : Obligations.MissingPayloadByteFaults := by
  constructor
  · intro pt p s hlen
    have hfirst : ∀ n < 9, [0, 1, 2, 3, 4, 5, 6, 7, 8, 8].find? (n ≤ ·) = some n := by decide
    exact exec_tempRain_of_error s ((reads_tempRainRecord pt p).faults _ (hfirst _ hlen))
  · intro pt p s k hlack hk
    have hread := List.mem_append_left [s.cfg.thOffStatus.toNat] hk
    obtain ⟨j, hj, hfault⟩ := (reads_tempHumRecord s.cfg pt p).faults_of_mem hread hlack
    exact ⟨j, hj, exec_tempHum_of_error s hfault⟩

/-- Settles O30: the events before COMPLETE gather the frame, COMPLETE adds its last byte and evaluates it. -/
theorem hardwareComputesEval : Obligations.HardwareComputesEval := by
  intro s lead rest e first b hn hpending hevents hlast
  obtain ⟨t, hrun, hframe, hcfg, hrest⟩ := run_gathers lead (e :: rest) 1 (gathered_nil hn) hpending hevents
  have hwhole : Gathered (takeByte b (passEdge t)) (first ++ [b]) :=
    Gathered.takeByte (s := passEdge t) (hframe.congr rfl rfl) b
  obtain ⟨o, heval, hcomplete⟩ := hwhole.completeFrame
  have hnext : nextEdge t = e := nextEdge_of_pending_cons hrest
  have hstep : step t = .next (finishFrame o (takeByte b (passEdge t))) :=
    (step_of_complete (hnext ▸ hlast)).trans hcomplete
  refine ⟨finishFrame o (takeByte b (passEdge t)), ?_, ?_, rfl, rfl, hcfg, ?_⟩
  · rw [hrun, core_run_succ_of_step 0 hstep, core_run_zero]
  · rw [← hcfg]
    exact heval
  · rw [finishFrame_pending, takeByte_pending, passEdge_pending, hrest, List.tail_cons]

end Sys2Proof.Machine

/-! SUPPORT. The statements on the encoding (spec 30_encoding.md): the port words of the events, the frames that decode,
and the written `tr` and `th` lines as the inverse of the two frame instructions. -/

namespace Sys2Proof

/-! ## Port words (R5, opcode_table.json) -/

/-- A port word is its three control bits `rst`, `in_valid`, `in_last` and then `in_byte`. -/
theorem decodeEdge_append (c : BitVec 3) (b : Byte) (straps : Cfg) :
    decodeEdge ⟨c ++ b, straps⟩ =
      if c.getLsbD 2 then .reset straps
      else if c.getLsbD 1 then if c.getLsbD 0 then .complete b else .accept b
      else .idle := by
  have hbyte : (c ++ b).setWidth 8 = b := BitVec.setWidth_append_eq_right
  have hctl (j : Nat) : (c ++ b).getLsbD (8 + j) = c.getLsbD j := by
    rw [BitVec.getLsbD_append, if_neg (Nat.not_lt.mpr (Nat.le_add_right 8 j)), Nat.add_sub_cancel_left]
  simp only [decodeEdge, BitVec.truncate_eq_setWidth, ← hctl, hbyte]

/-! ## Well-formed frame instructions, each check as a proposition -/

theorem wellFormed_tempRain_iff {cfg : Cfg} {pt : Byte} {p : List Byte} :
    (Instr.tempRain pt p).wellFormed cfg = true ↔
      pt = cfg.ptTr ∧ 9 ≤ p.length ∧ p.length ≤ 254 ∧ subtypeListed cfg.trSubtypes p = true := by
  simp only [Instr.wellFormed, Bool.and_eq_true, decide_eq_true_eq, and_assoc]
  simp only [trMinPayload]

theorem wellFormed_tempHum_iff {cfg : Cfg} {pt : Byte} {p : List Byte} :
    (Instr.tempHum pt p).wellFormed cfg = true ↔
      pt = cfg.ptTh ∧ pt ≠ cfg.ptTr ∧ 7 ≤ p.length ∧ p.length ≤ 254 ∧ cfg.thFieldsLen.toNat + mkMin cfg ≤ p.length ∧
        markerAccepted cfg p p.length = true ∧ subtypeListed cfg.thSubtypes p = true ∧ thEffCal cfg = true := by
  simp only [Instr.wellFormed, Bool.and_eq_true, decide_eq_true_eq, and_assoc]
  simp only [minPayload]

/-! ## A frame decodes to an instruction exactly when it encodes it (R60, R92, R97) -/

/-- A right length byte makes a frame the `frame` line of its packet type and payload, and bounds the payload. -/
theorem eq_frameBytes_iff {bytes : List Byte} {pt : Byte} {p : List Byte} :
    (∃ l : Byte, bytes = l :: pt :: p ∧ l.toNat = bytes.length - 1) ↔ bytes = frameBytes pt p ∧ p.length ≤ 254 := by
  constructor
  · rintro ⟨l, rfl, hl⟩
    have hcount : l.toNat = 1 + p.length := by simpa [Nat.add_comm] using hl
    have hlt := l.isLt
    exact ⟨by rw [frameBytes, ← hcount, BitVec.ofNat_toNat, BitVec.setWidth_eq], by omega⟩
  · rintro ⟨rfl, hle⟩
    exact ⟨_, rfl, by rw [frameBytes_declared hle, frameBytes_length]; omega⟩

theorem encode_instrOf (sel : Selected) : encode (instrOf sel) = .frame (frameBytes sel.pt sel.payload) := by
  rcases sel with ⟨_ | _, pt, p⟩ <;> rfl

/-- The stages pass exactly the frames of the well-formed instructions. -/
theorem selectDecoder_eq_ok_iff_wellFormed {cfg : Cfg} {bytes : List Byte} {sel : Selected} :
    selectDecoder cfg bytes.length bytes = .ok sel ↔
      (instrOf sel).wellFormed cfg = true ∧ bytes = frameBytes sel.pt sel.payload := by
  rw [selectDecoder_eq_ok]
  constructor
  · rintro ⟨l, hbytes, hl, h9, hfam⟩
    obtain ⟨hframe, hle⟩ := eq_frameBytes_iff.mp ⟨l, hbytes, hl⟩
    have hlen : bytes.length - 2 = sel.payload.length := by rw [hbytes]; rfl
    refine ⟨?_, hframe⟩
    rcases hfam with ⟨hd, hpt, h11, hsub⟩ | ⟨hd, hne, hpt, hcal, hmin, hmark, hsub⟩ <;> rw [instrOf, hd]
    · exact wellFormed_tempRain_iff.mpr ⟨hpt, by omega, hle, hsub⟩
    · rw [hlen] at hmin hmark
      exact wellFormed_tempHum_iff.mpr ⟨hpt, hne, by omega, hle, hmin, hmark, hsub, hcal⟩
  · rintro ⟨hwf, hframe⟩
    have hlen : bytes.length = 2 + sel.payload.length := by rw [hframe, frameBytes_length]
    have hpayload : bytes.length - 2 = sel.payload.length := by omega
    rw [instrOf] at hwf
    split at hwf <;> rename_i hd
    · obtain ⟨hpt, h9, hle, hsub⟩ := wellFormed_tempRain_iff.mp hwf
      obtain ⟨l, hbytes, hl⟩ := eq_frameBytes_iff.mpr ⟨hframe, hle⟩
      exact ⟨l, hbytes, hl, by omega, .inl ⟨hd, hpt, by omega, hsub⟩⟩
    · obtain ⟨hpt, hne, h7, hle, hmin, hmark, hsub, hcal⟩ := wellFormed_tempHum_iff.mp hwf
      obtain ⟨l, hbytes, hl⟩ := eq_frameBytes_iff.mpr ⟨hframe, hle⟩
      rw [← hpayload] at hmin hmark
      exact ⟨l, hbytes, hl, by omega, .inr ⟨hd, hne, hpt, hcal, hmin, hmark, hsub⟩⟩

theorem decodeFrame_eq_ok {cfg : Cfg} {bytes : List Byte} {i : Instr} :
    decodeFrame cfg bytes = .ok i ↔ ∃ sel, selectDecoder cfg bytes.length bytes = .ok sel ∧ instrOf sel = i := by
  unfold decodeFrame
  cases selectDecoder cfg bytes.length bytes <;> simp [Except.map]

/-- Only a frame instruction is encoded as a frame. -/
theorem exists_instrOf_of_encode {i : Instr} {bytes : List Byte} (h : encode i = .frame bytes) :
    ∃ sel, instrOf sel = i := by
  cases i with
  | tempRain pt p => exact ⟨⟨.tempRain, pt, p⟩, rfl⟩
  | tempHum pt p => exact ⟨⟨.tempHum, pt, p⟩, rfl⟩
  | accept b => cases h
  | complete b => cases h
  | idle => cases h
  | reset straps => cases h

/-- Decoding a frame and encoding an instruction are inverse on well-formed instructions. -/
theorem decodeFrame_eq_ok_iff_encode {cfg : Cfg} {bytes : List Byte} {i : Instr} :
    decodeFrame cfg bytes = .ok i ↔ i.wellFormed cfg = true ∧ encode i = .frame bytes := by
  rw [decodeFrame_eq_ok]
  constructor
  · rintro ⟨sel, hsel, rfl⟩
    obtain ⟨hwf, rfl⟩ := selectDecoder_eq_ok_iff_wellFormed.mp hsel
    exact ⟨hwf, encode_instrOf sel⟩
  · rintro ⟨hwf, henc⟩
    obtain ⟨sel, rfl⟩ := exists_instrOf_of_encode henc
    rw [encode_instrOf, Encoding.frame.injEq] at henc
    exact ⟨sel, selectDecoder_eq_ok_iff_wellFormed.mpr ⟨hwf, henc.symm⟩, rfl⟩

/-! ## The statements on decode and encode -/

/-- Settles O1: a port word by its control bits, a frame by the inverse of its decoding. -/
theorem decodeInvertsEncode : Obligations.DecodeInvertsEncode := by
  intro cfg i hwf
  cases i with
  | tempRain pt p => exact decodeFrame_eq_ok_iff_encode.mpr ⟨hwf, rfl⟩
  | tempHum pt p => exact decodeFrame_eq_ok_iff_encode.mpr ⟨hwf, rfl⟩
  | accept b => exact congrArg Except.ok (decodeEdge_append 0b010#3 b Config.straps)
  | complete b => exact congrArg Except.ok (decodeEdge_append 0b011#3 b Config.straps)
  | idle => exact congrArg Except.ok (decodeEdge_append 0b000#3 0x00#8 Config.straps)
  | reset straps => exact congrArg Except.ok (decodeEdge_append 0b100#3 0x00#8 straps)

/-- Settles O2. -/
theorem decodedFrameIsItsEncoding : Obligations.DecodedFrameIsItsEncoding :=
  fun _ _ _ => decodeFrame_eq_ok_iff_encode.mp

end Sys2Proof

namespace Sys2Proof.Machine

/-! ## The bytes of a written line, read back by the operand forms (R65 to R68, R74) -/

theorem zeroExtend_toNat {w : Nat} {x : BitVec w} (h : w ≤ 8) : (x.zeroExtend 8).toNat = x.toNat :=
  BitVec.toNat_setWidth_of_le h

theorem be16_highByte_lowByte (v : Half) : be16 (highByte v) (lowByte v) = v := by
  apply BitVec.eq_of_toNat_eq
  have hv := v.isLt
  rw [be16_toNat, highByte, lowByte, BitVec.extractLsb'_toNat, BitVec.extractLsb'_toNat, Nat.shiftRight_eq_div_pow]
  omega

/-- The sign bit and the seven high bits of the magnitude do not overlap (R66). -/
theorem tempHighByte_toNat {temp : Int} (h : temp.natAbs ≤ 32767) :
    (tempHighByte temp).toNat = (if temp < 0 then 128 else 0) + temp.natAbs / 256 := by
  have hlt : temp.natAbs / 256 < 2 ^ 7 := by omega
  have hbits : (BitVec.ofNat 8 (temp.natAbs / 256 % 128)).toNat = temp.natAbs / 256 := by
    rw [BitVec.toNat_ofNat]; omega
  rw [tempHighByte, BitVec.toNat_or, hbits]
  split
  · exact (Nat.two_pow_add_eq_or_of_lt hlt 1).symm
  · simp

theorem tempLowByte_toNat (temp : Int) : (tempLowByte temp).toNat = temp.natAbs % 256 :=
  BitVec.toNat_ofNat _ _

/-- Sign and magnitude as written are read back as the signed number (R66). -/
theorem signMag_tempBytes {temp : Int} (h : temp.natAbs ≤ 32767) :
    (signMag (tempHighByte temp) (tempLowByte temp)).toInt = temp := by
  rw [signMag_toInt, tempHighByte_toNat h, tempLowByte_toNat]
  by_cases hneg : temp < 0
  · rw [if_pos hneg, if_pos (Nat.le_add_right 128 _)]
    omega
  · rw [if_neg hneg, if_neg (by omega)]
    omega

theorem statusByte_toNat (batt sig : Nibble) : (statusByte batt sig).toNat = 16 * sig.toNat + batt.toNat := by
  have hbatt := batt.isLt
  rw [statusByte, BitVec.toNat_append, ← Nat.shiftLeft_add_eq_or_of_lt hbatt, Nat.shiftLeft_eq]
  omega

theorem lowNibble_statusByte (batt sig : Nibble) : lowNibble (statusByte batt sig) = batt := by
  apply BitVec.eq_of_toNat_eq
  have hbatt := batt.isLt
  rw [lowNibble_toNat, statusByte_toNat]
  omega

theorem highNibble_statusByte (batt sig : Nibble) : highNibble (statusByte batt sig) = sig := by
  apply BitVec.eq_of_toNat_eq
  have hbatt := batt.isLt
  rw [highNibble_toNat, statusByte_toNat]
  omega

theorem statusByte_nibbles (b : Byte) : statusByte (lowNibble b) (highNibble b) = b := by
  apply BitVec.eq_of_toNat_eq
  rw [statusByte_toNat, lowNibble_toNat, highNibble_toNat]
  omega

/-- A 2-bit field written at a shift of at most 6 stays in its byte (R68). -/
theorem slice2_shiftLeft (code : BitVec 2) {sh : Nat} (h : sh ≤ 6) : slice2 (code.zeroExtend 8 <<< sh) sh = code := by
  apply BitVec.eq_of_toNat_eq
  have hcode := code.isLt
  have hpow : 2 ^ sh ≤ 2 ^ 6 := Nat.pow_le_pow_right (by decide) h
  have hfits : code.toNat * 2 ^ sh < 2 ^ 8 :=
    calc code.toNat * 2 ^ sh ≤ 3 * 2 ^ 6 := Nat.mul_le_mul (by omega) hpow
      _ < 2 ^ 8 := by decide
  rw [slice2_toNat, BitVec.toNat_shiftLeft, zeroExtend_toNat (by decide), Nat.shiftLeft_eq, Nat.mod_eq_of_lt hfits,
    Nat.mul_div_cancel _ (Nat.two_pow_pos sh), Nat.mod_eq_of_lt hcode]

theorem trPayload_length (sub seq : Byte) (id : Half) (temp : Int) (rain : Half) (batt sig : Nibble) :
    (trPayload sub seq id temp rain batt sig).length = 9 := rfl

/-! ## The nibbles of a status byte as bytes (R67) -/

theorem and_0F_toNat (b : Byte) : (b &&& 0x0F#8).toNat = b.toNat % 16 := by
  rw [BitVec.toNat_and]
  exact Nat.and_two_pow_sub_one_eq_mod b.toNat 4

theorem zeroExtend_lowNibble (b : Byte) : (lowNibble b).zeroExtend 8 = b &&& 0x0F#8 := by
  apply BitVec.eq_of_toNat_eq
  rw [zeroExtend_toNat (by decide), lowNibble_toNat, and_0F_toNat]

theorem zeroExtend_highNibble (b : Byte) : (highNibble b).zeroExtend 8 = b >>> 4 &&& 0x0F#8 := by
  apply BitVec.eq_of_toNat_eq
  have hb := b.isLt
  rw [zeroExtend_toNat (by decide), highNibble_toNat, and_0F_toNat, BitVec.toNat_ushiftRight,
    Nat.shiftRight_eq_div_pow]
  omega

theorem zeroExtend_or_shiftLeft (batt sig : Nibble) :
    batt.zeroExtend 8 ||| sig.zeroExtend 8 <<< 4 = statusByte batt sig := by
  rw [BitVec.or_comm]
  exact BitVec.setWidth_append_eq_shiftLeft_setWidth_or.symm

theorem nibbles_rebuild_byte (b : Byte) :
    (lowNibble b).zeroExtend 8 = b &&& 0x0F#8 ∧ (highNibble b).zeroExtend 8 = b >>> 4 &&& 0x0F#8 ∧
      (lowNibble b).zeroExtend 8 ||| (highNibble b).zeroExtend 8 <<< 4 = b :=
  ⟨zeroExtend_lowNibble b, zeroExtend_highNibble b, by rw [zeroExtend_or_shiftLeft, statusByte_nibbles]⟩

/-! ## The field region of a `th` line (R74) -/

theorem placeByte_length (o : Nat) (b : Byte) (p : List Byte) : (placeByte o b p).length = p.length :=
  List.length_modify _ _ _

theorem placeByte_getD_same {o : Nat} (b : Byte) {p : List Byte} (h : o < p.length) :
    (placeByte o b p).getD o 0 = p.getD o 0 ||| b := by
  simp [placeByte, h]

theorem placeByte_getD_other {o k : Nat} (b : Byte) (p : List Byte) (h : k ≠ o) :
    (placeByte o b p).getD k 0 = p.getD k 0 := by
  simp [placeByte, h.symm]

/-- Bytes placed at their offsets, one after the other. -/
def placeAll (fields : List (Nat × Byte)) (p : List Byte) : List Byte :=
  fields.foldr (fun f => placeByte f.1 f.2) p

theorem placeAll_length (fields : List (Nat × Byte)) (p : List Byte) : (placeAll fields p).length = p.length := by
  induction fields with
  | nil => rfl
  | cons f fields ih => exact (placeByte_length _ _ _).trans ih

theorem placeAll_getD_of_notMem {fields : List (Nat × Byte)} {k : Nat} (p : List Byte)
    (h : k ∉ fields.map Prod.fst) : (placeAll fields p).getD k 0 = p.getD k 0 := by
  induction fields with
  | nil => rfl
  | cons f fields ih =>
    obtain ⟨hne, hrest⟩ := not_or.mp (List.mem_cons.not.mp h)
    exact (placeByte_getD_other _ _ hne).trans (ih hrest)

/-- Fields at pairwise different offsets of a zero region do not disturb each other. -/
theorem placeAll_getD {fields : List (Nat × Byte)} {n o : Nat} {b : Byte} (hdiff : (fields.map Prod.fst).Nodup)
    (hmem : (o, b) ∈ fields) (ho : o < n) : (placeAll fields (List.replicate n 0#8)).getD o 0 = b := by
  induction fields with
  | nil => cases hmem
  | cons f fields ih =>
    obtain ⟨hfresh, hrest⟩ := List.nodup_cons.mp hdiff
    have hlen : o < (placeAll fields (List.replicate n 0#8)).length := by rwa [placeAll_length, List.length_replicate]
    rcases List.mem_cons.mp hmem with rfl | hmem
    · have hzero : (List.replicate n 0#8).getD o 0 = 0 := by simp [ho]
      refine (placeByte_getD_same b hlen).trans ?_
      rw [placeAll_getD_of_notMem _ hfresh, hzero]
      exact BitVec.zero_or
    · have hne : o ≠ f.1 := fun h => hfresh (h ▸ List.mem_map_of_mem hmem)
      exact (placeByte_getD_other _ _ hne).trans (ih hrest hmem)

section ThLine

variable (cfg : Cfg) (sub seq chan : Byte) (id : Half) (temp : Int) (hum : Byte) (code : BitVec 2) (batt sig : Nibble)

/-- What R74 places in the field region of a `th` line, each byte at its offset. -/
def thFields : List (Nat × Byte) :=
  [(0, sub), (cfg.thOffSeq.toNat, seq), (cfg.thOffChan.toNat, chan), (cfg.thOffId.toNat, highByte id),
    (cfg.thOffId.toNat + 1, lowByte id), (cfg.thOffTemp.toNat, tempHighByte temp),
    (cfg.thOffTemp.toNat + 1, tempLowByte temp), (cfg.thOffHum.toNat, hum),
    (cfg.thOffHumst.toNat, code.zeroExtend 8 <<< cfg.thHumstShift.toNat),
    (cfg.thOffStatus.toNat, statusByte batt sig)]

theorem thRegion_eq_placeAll :
    thRegion cfg sub seq chan id temp hum code batt sig =
      placeAll (thFields cfg sub seq chan id temp hum code batt sig) (List.replicate cfg.thFieldsLen.toNat 0#8) :=
  rfl

theorem thRegion_length :
    (thRegion cfg sub seq chan id temp hum code batt sig).length = cfg.thFieldsLen.toNat := by
  rw [thRegion_eq_placeAll, placeAll_length, List.length_replicate]

/-- Offset 0 is the subtype's alone: a well-formed table places no field there (R121). -/
theorem thFields_nodup (hok : thCfgOk cfg = true) (hdisjoint : thDisjoint cfg) :
    ((thFields cfg sub seq chan id temp hum code batt sig).map Prod.fst).Nodup := by
  obtain ⟨-, hseq, hchan, hhum, hhumst, hstatus, hid, htemp, -⟩ := thCfgOk_iff.mp hok
  refine List.nodup_cons.mpr ⟨?_, hdisjoint⟩
  simp only [List.map_cons, List.map_nil, List.mem_cons, List.not_mem_nil, or_false]
  omega

/-- Each byte of a `th` line's payload is read back at its offset, whatever marker follows the region. -/
theorem thPayload_getD (marker : List Byte) (hok : thCfgOk cfg = true) (hdisjoint : thDisjoint cfg) :
    ∀ f ∈ thFields cfg sub seq chan id temp hum code batt sig,
      (thRegion cfg sub seq chan id temp hum code batt sig ++ marker).getD f.1 0 = f.2 := by
  intro f hf
  have hregion : f.1 < cfg.thFieldsLen.toNat := by
    obtain ⟨hpos, hseq, hchan, hhum, hhumst, hstatus, hid, htemp, -⟩ := thCfgOk_iff.mp hok
    have hoff := List.mem_map_of_mem (f := Prod.fst) hf
    simp only [thFields, List.map_cons, List.map_nil, List.mem_cons, List.not_mem_nil, or_false] at hoff
    omega
  rw [List.getD_append _ _ _ _ (by rwa [thRegion_length]), thRegion_eq_placeAll]
  exact placeAll_getD (thFields_nodup cfg sub seq chan id temp hum code batt sig hok hdisjoint) hf hregion

end ThLine

/-! ## What the two frame instructions answer, from the record of their payload -/

theorem exec_tempRain_of_ok {pt : Byte} {p : List Byte} {o : OutRecord} (s : State)
    (h : tempRainRecord pt p = .ok o) : exec (.tempRain pt p) s = .next (writeOut o s) := by
  simp only [exec, execTempRain, h]

theorem exec_tempHum_of_ok {pt : Byte} {p : List Byte} {o : OutRecord} (s : State)
    (h : tempHumRecord s.cfg pt p = .ok o) : exec (.tempHum pt p) s = .next (writeOut o s) := by
  simp only [exec, execTempHum, h]

/-! ## The statements on the fields of the two families -/

/-- Settles O13: both families take the nibbles of one byte, and the nibbles of a byte are the byte. -/
theorem nibblesRebuildStatusByte : Obligations.NibblesRebuildStatusByte :=
  ⟨fun _ _ s hlen => ⟨_, exec_tempRain_of_ok s (tempRainRecord_of_length hlen), nibbles_rebuild_byte _⟩,
    fun _ _ s hok hlen => ⟨_, exec_tempHum_of_ok s (tempHumRecord_of_length hok hlen), nibbles_rebuild_byte _⟩⟩

/-- Settles O45: the frame of a `tr` line is that of a well-formed TEMP_RAIN, and each operand form reads back the bytes
the line wrote for it. -/
theorem trLineRoundTrip : Obligations.TrLineRoundTrip := by
  intro cfg sub seq id temp rain batt sig s htemp hsub
  have hcount := trPayload_length sub seq id temp rain batt sig
  have hlen : 9 ≤ (trPayload sub seq id temp rain batt sig).length := hcount.ge
  have hwf : (Instr.tempRain cfg.ptTr (trPayload sub seq id temp rain batt sig)).wellFormed cfg = true :=
    wellFormed_tempRain_iff.mpr ⟨rfl, hlen, by omega, hsub⟩
  refine ⟨decodeFrame_eq_ok_iff_encode.mpr ⟨hwf, rfl⟩, _, exec_tempRain_of_ok s (tempRainRecord_of_length hlen), ?_⟩
  exact ⟨rfl, rfl, be16_highByte_lowByte id, signMag_tempBytes htemp, be16_highByte_lowByte rain,
    lowNibble_statusByte batt sig, highNibble_statusByte batt sig⟩

/-- Settles O46: the payload holds each byte of the line at its offset, and each operand form reads back the bytes
the line wrote for it. -/
theorem thLineRoundTrip : Obligations.ThLineRoundTrip := by
  intro pt sub seq chan id temp hum code batt sig marker s htemp hok hdisjoint
  have hlen : s.cfg.thFieldsLen.toNat ≤ (thRegion s.cfg sub seq chan id temp hum code batt sig ++ marker).length := by
    rw [List.length_append, thRegion_length]
    exact Nat.le_add_right _ _
  obtain ⟨-, -, -, -, -, -, -, -, hshift⟩ := thCfgOk_iff.mp hok
  have hbytes := thPayload_getD s.cfg sub seq chan id temp hum code batt sig marker hok hdisjoint
  simp only [thFields, List.forall_mem_cons] at hbytes
  obtain ⟨bSub, bSeq, bChan, bIdHigh, bIdLow, bTempHigh, bTempLow, bHum, bHumst, bStatus, -⟩ := hbytes
  refine ⟨_, exec_tempHum_of_ok s (tempHumRecord_of_length hok hlen), ?_⟩
  simp only [writeOut_out, bSub, bSeq, bChan, bIdHigh, bIdLow, bTempHigh, bTempLow, bHum, bHumst, bStatus,
    be16_highByte_lowByte, signMag_tempBytes htemp, slice2_shiftLeft code hshift, lowNibble_statusByte,
    highNibble_statusByte, humStatus, and_self]

end Sys2Proof.Machine

/-! SUPPORT. The statements on the frame intake (spec 40_frame_intake.md): the events ACCEPT, COMPLETE and IDLE, the
port words that carry them, and the completion of a frame that decodes or is rejected. -/

namespace Sys2Proof

/-! ## Port samples by their control bits (R82, R84, opcode_table.json) -/

theorem decodeEdge_of_accept_bits {e : PortEdge} (hrst : e.word.getLsbD 10 = false) (hvalid : e.word.getLsbD 9 = true)
    (hlast : e.word.getLsbD 8 = false) : decodeEdge e = .accept (e.word.extractLsb' 0 8) := by
  simp only [decodeEdge, hrst, hvalid, hlast, Bool.false_eq_true, if_false, if_true, BitVec.truncate_eq_setWidth,
    BitVec.setWidth_eq_extractLsb' (show 8 ≤ 11 by decide)]

theorem decodeEdge_of_idle_bits {e : PortEdge} (hrst : e.word.getLsbD 10 = false) (hvalid : e.word.getLsbD 9 = false) :
    decodeEdge e = .idle := by
  simp only [decodeEdge, hrst, hvalid, Bool.false_eq_true, if_false]

/-! ## The statement on written words -/

/-- Settles O3: each port word by its three control bits and its byte, the frame by the encoding of TEMP_RAIN. -/
theorem wordsDecodeAsWritten : Obligations.WordsDecodeAsWritten := by
  constructor
  · intro straps
    exact ⟨decodeEdge_append 0b010#3 0x42#8 straps, decodeEdge_append 0b011#3 0x0A#8 straps,
      decodeEdge_append 0b000#3 0x00#8 straps, decodeEdge_append 0b001#3 0xFF#8 straps,
      decodeEdge_append 0b100#3 0x00#8 straps, decodeEdge_append 0b111#3 0xFF#8 straps⟩
  · intro cfg hpt hsub
    exact decodeFrame_eq_ok_iff_encode.mpr
      ⟨wellFormed_tempRain_iff.mpr ⟨hpt.symm, by decide, by decide, hsub⟩, rfl⟩

end Sys2Proof

namespace Sys2Proof.Machine

/-! ## The instructions of the intake -/

theorem exec_accept (b : Byte) (s : State) : exec (.accept b) s = .next (dropValid (takeByte b s)) := rfl

theorem exec_idle (s : State) : exec .idle s = .next (dropValid s) := rfl

/-- While there is room, the byte taken stands at index N (R82). -/
theorem takeByte_find_stored (b : Byte) {s : State} (hroom : s.n.toNat ≤ 255) :
    (takeByte b s).fb.find s.n.toNat = some b := by
  rw [takeByte_find, if_pos ⟨rfl, hroom⟩]

/-- Every other index keeps its byte, and with the buffer full every index does (R82). -/
theorem takeByte_find_kept (b : Byte) {s : State} {i : Nat} (hi : i ≠ s.n.toNat ∨ 255 < s.n.toNat) :
    (takeByte b s).fb.find i = s.fb.find i := by
  rw [takeByte_find, if_neg (by omega)]

/-! ## `Eval` of a frame, by what the decoder answers (R90, R100, R143) -/

theorem evalBytes_of_decodeFrame_error {cfg : Cfg} {bytes : List Byte} {r : Reject}
    (h : decodeFrame cfg bytes = .error r) : evalBytes cfg bytes = .ok (errorRecord r) := by
  unfold decodeFrame at h
  unfold evalBytes evalFrame
  cases hsel : selectDecoder cfg bytes.length bytes with
  | ok sel => rw [hsel] at h; cases h
  | error r' => rw [hsel] at h; cases h; rfl

/-- The instruction of a selected frame writes the frame's record, less the strobe and N (log entry 6). -/
theorem exec_instrOf {s : State} {sel : Selected} {o : OutRecord} (h : selectedRecord s.cfg sel = .ok o) :
    exec (instrOf sel) s = .next (writeOut o s) := by
  obtain ⟨decoder, pt, p⟩ := sel
  cases decoder with
  | tempRain => exact exec_tempRain_of_ok s h
  | tempHum => exact exec_tempHum_of_ok s h

theorem exec_of_decodeFrame {s : State} {bytes : List Byte} {i : Instr} {o : OutRecord}
    (hdecode : decodeFrame s.cfg bytes = .ok i) (heval : evalBytes s.cfg bytes = .ok o) :
    exec i s = .next (writeOut o s) := by
  obtain ⟨sel, hsel, rfl⟩ := decodeFrame_eq_ok.mp hdecode
  rw [evalBytes, evalFrame, hsel] at heval
  exact exec_instrOf heval

/-! ## The step that ends a frame (R51, R83) -/

/-- The bytes a fetch answers are the current frame, when the buffer has room for all of it. -/
theorem gathered_of_fetchFrame {s : State} {bytes : List Byte} (hroom : s.n.toNat ≤ 256)
    (h : fetchFrame s.fb s.n.toNat = .ok bytes) : Gathered s bytes := by
  obtain ⟨hlen, hlisted⟩ := fetchFrame_eq_ok.mp h
  rw [fbSize] at hlen hlisted
  exact ⟨by omega, fun i hi => hlisted i (by omega)⟩

/-- A step that completes a frame the buffer has room for writes `Eval` of the bytes it then holds. -/
theorem step_of_completed_frame {s : State} {e : PortEdge} {rest : List PortEdge} {b : Byte} {bytes : List Byte}
    (hpending : s.pending = e :: rest) (hlast : decodeEdge e = .complete b) (hroom : s.n.toNat ≤ 255)
    (hfetch : fetchFrame (takeByte b s).fb (s.n.toNat + 1) = .ok bytes) :
    ∃ o, evalBytes s.cfg bytes = .ok o ∧
      step s = .next (finishFrame o (takeByte b { s with pending := rest })) := by
  have hn : (takeByte b s).n.toNat = s.n.toNat + 1 := by rw [takeByte_n_toNat]; omega
  have hframe : Gathered (takeByte b s) bytes := gathered_of_fetchFrame (by omega) (by rw [hn]; exact hfetch)
  have hframe' : Gathered (takeByte b { s with pending := rest }) bytes := hframe.congr rfl rfl
  obtain ⟨o, heval, hcomplete⟩ := hframe'.completeFrame
  have hnext : decodeEdge (nextEdge s) = .complete b := by rw [nextEdge_of_pending_cons hpending, hlast]
  exact ⟨o, heval, by rw [step_of_complete hnext, passEdge_of_pending_cons hpending, hcomplete]⟩

/-! ## The statements -/

/-- Settles O5: the step ends the frame with its `Eval`, which is the record the decoded instruction writes. -/
theorem stepRunsDecodedFrame : Obligations.StepRunsDecodedFrame := by
  intro s e rest b bytes i hpending hlast hroom hfetch hdecode
  obtain ⟨o, heval, hstep⟩ := step_of_completed_frame hpending hlast hroom hfetch
  exact ⟨_, exec_of_decodeFrame (s := takeByte b { s with pending := rest }) hdecode heval, hstep⟩

/-- Settles O6: the step ends the frame with its `Eval`, which is the error record of the rejection. -/
theorem stepRaisesRejectedFrame : Obligations.StepRaisesRejectedFrame := by
  intro s e rest b bytes r hpending hlast hroom hfetch hdecode
  obtain ⟨o, heval, hstep⟩ := step_of_completed_frame hpending hlast hroom hfetch
  rw [evalBytes_of_decodeFrame_error hdecode, Except.ok.injEq] at heval
  exact ⟨_, hstep, heval.symm, rfl, rfl, rfl, rfl, rfl⟩

/-- Settles O7, by the counter and the buffer after a byte was taken. -/
theorem acceptStoresAndCounts : Obligations.AcceptStoresAndCounts := by
  intro b s
  refine ⟨⟨_, exec_accept b s, takeByte_n_toNat b s, rfl, takeByte_find_stored b,
    fun _ => takeByte_find_kept b, rfl, rfl, rfl⟩, ?_⟩
  rintro e hrst hvalid hlast rfl
  exact decodeEdge_of_accept_bits hrst hvalid hlast

/-- Settles O8: the byte taken completes the gathered frame, which is then evaluated. -/
theorem completeWritesEval : Obligations.CompleteWritesEval := by
  intro s b before hn hroom hlisted
  have hbefore : Gathered s before := ⟨by omega, fun i hi => hlisted i (by omega)⟩
  obtain ⟨o, heval, hcomplete⟩ := (hbefore.takeByte b).completeFrame
  rw [← hn] at hroom ⊢
  exact ⟨_, (exec_complete b s).trans hcomplete, heval, rfl, rfl, takeByte_find_stored b hroom,
    fun _ hi => takeByte_find_kept b (.inl hi), rfl, rfl⟩

/-- Settles O9. -/
theorem idleOnlyDropsStrobe : Obligations.IdleOnlyDropsStrobe :=
  ⟨exec_idle, fun _ => decodeEdge_of_idle_bits⟩

end Sys2Proof.Machine

/-! SUPPORT. The statements on frame validation (spec 41_frame_validation.md): the structural stages as one check, which
never looks at the subtype; the marker as a payload tail; and what a frame outside the Temp/Humidity family reports. -/

namespace Sys2Proof

/-! ## The marker is a tail of the payload after the fields (R96) -/

/-- The last `n` elements of a list are the first `n` of another exactly when they agree at each index. -/
theorem drop_eq_take_iff_getElem? {α : Type} {p v : List α} {n : Nat} (hn : n ≤ p.length) :
    p.drop (p.length - n) = v.take n ↔ ∀ j, j < n → p[p.length - n + j]? = v[j]? := by
  constructor
  · intro h j hj
    rw [← List.getElem?_drop, h, List.getElem?_take_of_lt hj]
  · intro h
    refine List.ext_getElem? fun j => ?_
    rw [List.getElem?_drop]
    by_cases hj : j < n
    · rw [h j hj, List.getElem?_take_of_lt hj]
    · rw [List.getElem?_take_eq_none (Nat.le_of_not_lt hj), List.getElem?_eq_none (by omega)]

theorem markerMatches_iff {cfg : Cfg} {p v : List Byte} {n : Nat} :
    markerMatches cfg p p.length v n = true ↔
      1 ≤ n ∧ markerFloor cfg + n ≤ p.length ∧ ∀ j, j < n → p[p.length - n + j]? = v[j]? := by
  rw [markerMatches, decide_eq_true_eq]
  refine and_congr_right fun _ => and_congr_right fun hfits => ?_
  exact drop_eq_take_iff_getElem? (by omega)

theorem markerAccepted_iff {cfg : Cfg} {p : List Byte} {plen : Nat} :
    markerAccepted cfg p plen = true ↔
      markerMatches cfg p plen cfg.mkFull cfg.ml.toNat = true ∨
        markerMatches cfg p plen cfg.mkShort cfg.ms.toNat = true :=
  Bool.or_eq_true_iff

/-- Either floor keeps the marker off the subtype byte: a well-formed table has at least one byte of fields (R121). -/
theorem one_le_markerFloor (cfg : Cfg) : 1 ≤ markerFloor cfg := by
  unfold markerFloor
  split
  · next hcal => exact (Machine.thCfgOk_iff.mp (Bool.and_eq_true_iff.mp hcal).2).1
  · exact Nat.le_refl 1

theorem markerMatches_subtype_congr (cfg : Cfg) (st st' : Byte) (fields : List Byte) (plen : Nat) (v : List Byte)
    (n : Nat) : markerMatches cfg (st :: fields) plen v n = markerMatches cfg (st' :: fields) plen v n := by
  have hfloor := one_le_markerFloor cfg
  refine decide_eq_decide.mpr (and_congr_right fun _ => and_congr_right fun hfits => ?_)
  obtain ⟨k, hk⟩ : ∃ k, plen - n = k + 1 := ⟨plen - n - 1, by omega⟩
  rw [hk, List.drop_succ_cons, List.drop_succ_cons]

theorem markerAccepted_subtype_congr (cfg : Cfg) (st st' : Byte) (fields : List Byte) (plen : Nat) :
    markerAccepted cfg (st :: fields) plen = markerAccepted cfg (st' :: fields) plen := by
  simp only [markerAccepted, markerMatches_subtype_congr cfg st st']

/-! ## Validation: the stages after the header and before DISPATCH (R92 to R96) -/

/-- What R97 and R98 call validation, on a frame that has a header: its stages in the order of R90. -/
def validate (cfg : Cfg) (f : RawFrame) : Except Reject Unit := do
  chkLen f
  chkFloor f
  chkFamMin cfg (classify cfg f.packetType) f
  chkMarker cfg (classify cfg f.packetType) f

/-- The decoder of frames is validation and then DISPATCH. -/
theorem selectDecoder_eq_validate_dispatch (cfg : Cfg) (l pt : Byte) (p : List Byte) :
    selectDecoder cfg (l :: pt :: p).length (l :: pt :: p) =
      (do
        validate cfg ⟨l, pt, p, p.length⟩
        let d ← dispatch cfg (classify cfg pt) ⟨l, pt, p, p.length⟩
        return ⟨d, pt, p⟩) := by
  have hheader : chkHdr (l :: pt :: p).length (l :: pt :: p) = .ok ⟨l, pt, p, p.length⟩ :=
    if_neg (Nat.not_lt.mpr (Nat.le_add_left 2 p.length))
  rw [selectDecoder, hheader]
  simp only [validate, bind_assoc]
  rfl

theorem validate_of_length_ne {cfg : Cfg} {f : RawFrame} (h : f.declaredLength.toNat ≠ 1 + f.plen) :
    validate cfg f = .error ⟨.lengthMismatch, f.packetType⟩ := by
  simp only [validate, chkLen, h, if_false]
  rfl

theorem validate_of_lt_floor {cfg : Cfg} {f : RawFrame} (hlen : f.declaredLength.toNat = 1 + f.plen) (h : f.plen < 7) :
    validate cfg f = .error ⟨.tooShort, f.packetType⟩ := by
  simp only [validate, chkLen, chkFloor, minPayload, hlen, h, if_true]
  rfl

/-- A Temp/Rain frame of the right length is valid exactly when it has nine payload bytes; below the floor it fails
with the same error (R93, R95). -/
theorem validate_of_tr {cfg : Cfg} {f : RawFrame} (hlen : f.declaredLength.toNat = 1 + f.plen)
    (hpt : f.packetType = cfg.ptTr) :
    validate cfg f = if f.plen < 9 then .error ⟨.tooShort, f.packetType⟩ else .ok () := by
  by_cases h7 : f.plen < 7
  · rw [validate_of_lt_floor hlen h7, if_pos (Nat.lt_trans h7 (by decide))]
  · simp only [validate, chkLen, chkFloor, minPayload, hlen, h7, if_true, if_false, classify_eq_tr.mpr hpt, chkFamMin,
      chkMarker, trMinPayload]
    by_cases h9 : f.plen < 9 <;> simp only [h9, if_true, if_false] <;> rfl

/-- Validation reads of the payload its length and its marker alone. -/
theorem validate_congr_of_markerAccepted {cfg : Cfg} {l pt : Byte} {p p' : List Byte} {plen : Nat}
    (h : markerAccepted cfg p plen = markerAccepted cfg p' plen) :
    validate cfg ⟨l, pt, p, plen⟩ = validate cfg ⟨l, pt, p', plen⟩ := by
  have hfam : chkFamMin cfg (classify cfg pt) ⟨l, pt, p, plen⟩ = chkFamMin cfg (classify cfg pt) ⟨l, pt, p', plen⟩ := by
    cases classify cfg pt <;> rfl
  have hmark : chkMarker cfg (classify cfg pt) ⟨l, pt, p, plen⟩ = chkMarker cfg (classify cfg pt) ⟨l, pt, p', plen⟩ := by
    cases classify cfg pt
    case th => simp only [chkMarker, h]
    all_goals rfl
  simp only [validate, hfam, hmark]
  rfl

/-- DISPATCH raises UnknownFamily and UnsupportedFamily alone (R100 to R102). -/
theorem dispatch_error_kind {cfg : Cfg} {fam : Family} {f : RawFrame} {r : Reject}
    (h : dispatch cfg fam f = .error r) : r.kind = .unknownFamily ∨ r.kind = .unsupportedFamily := by
  cases fam with
  | none => cases h; exact .inl rfl
  | tr =>
    simp only [dispatch] at h
    split at h <;> cases h
    exact .inl rfl
  | th =>
    simp only [dispatch, gateTh] at h
    split at h
    · split at h <;> cases h
      exact .inr rfl
    · cases h
      exact .inl rfl

end Sys2Proof

namespace Sys2Proof.Machine

/-! ## `Eval` of a frame, by its validation -/

/-- No two error kinds share a code (R140). -/
theorem errCode_injective : Function.Injective errCode := by
  intro e e'
  cases e <;> cases e' <;> decide

/-- All a result can be: the error record of the rejection, or the record of the selected frame (R90). -/
theorem evalBytes_cases {cfg : Cfg} {bytes : List Byte} {o : OutRecord} (h : evalBytes cfg bytes = .ok o) :
    (∃ r, selectDecoder cfg bytes.length bytes = .error r ∧ o = errorRecord r) ∨
      ∃ sel, selectDecoder cfg bytes.length bytes = .ok sel ∧ selectedRecord cfg sel = .ok o := by
  unfold evalBytes evalFrame at h
  cases hsel : selectDecoder cfg bytes.length bytes with
  | error r => rw [hsel] at h; cases h; exact .inl ⟨r, rfl, rfl⟩
  | ok sel => rw [hsel] at h; exact .inr ⟨sel, rfl, h⟩

/-- The record of a selected frame has no error (R110, R120). -/
theorem selectedRecord_outErr {cfg : Cfg} {bytes : List Byte} {sel : Selected} {o : OutRecord}
    (hsel : selectDecoder cfg bytes.length bytes = .ok sel) (ho : selectedRecord cfg sel = .ok o) : o.outErr = 0 := by
  obtain ⟨l, rfl, -, -, ⟨hd, -, h11, -⟩ | ⟨hd, -, -, hcal, hmin, -, -⟩⟩ := selectDecoder_eq_ok.mp hsel <;>
    simp only [selectedRecord, hd] at ho
  · rw [tempRainRecord_of_length (Nat.le_of_add_le_add_right (b := 2) h11)] at ho
    cases ho
    rfl
  · have hfields : cfg.thFieldsLen.toNat ≤ sel.payload.length := Nat.le_trans (Nat.le_add_right _ _) hmin
    rw [tempHumRecord_of_length (Bool.and_eq_true_iff.mp hcal).2 hfields] at ho
    cases ho
    rfl

/-- A frame that fails validation reports its rejection. -/
theorem evalBytes_of_validate_error {cfg : Cfg} {l pt : Byte} {p : List Byte} {r : Reject}
    (h : validate cfg ⟨l, pt, p, p.length⟩ = .error r) : evalBytes cfg (l :: pt :: p) = .ok (errorRecord r) := by
  unfold evalBytes evalFrame
  rw [selectDecoder_eq_validate_dispatch, h]
  rfl

/-- A frame that passes validation reports none of the structural errors: DISPATCH raises two others. -/
theorem evalBytes_of_validate_ok {cfg : Cfg} {l pt : Byte} {p : List Byte}
    (h : validate cfg ⟨l, pt, p, p.length⟩ = .ok ()) :
    ∃ o, evalBytes cfg (l :: pt :: p) = .ok o ∧ o.outErr ≠ 1 ∧ o.outErr ≠ 2 ∧ o.outErr ≠ 3 := by
  obtain ⟨o, ho⟩ := evalBytes_total cfg (l :: pt :: p)
  refine ⟨o, ho, ?_⟩
  rcases evalBytes_cases ho with ⟨r, hsel, rfl⟩ | ⟨sel, hsel, hrec⟩
  · rw [selectDecoder_eq_validate_dispatch, h] at hsel
    have hkind : r.kind = .unknownFamily ∨ r.kind = .unsupportedFamily := by
      cases hdisp : dispatch cfg (classify cfg pt) ⟨l, pt, p, p.length⟩ with
      | error r' => rw [hdisp] at hsel; cases hsel; exact dispatch_error_kind hdisp
      | ok d => rw [hdisp] at hsel; cases hsel
    rcases hkind with hk | hk <;> simp only [errorRecord, hk] <;> decide
  · rw [selectedRecord_outErr hsel hrec]
    decide

/-- An error that is none of the Temp/Humidity family's own leaves no trace of that family. -/
theorem errorRecord_not_tempHum {e : FrameError} (pt : Byte) (hmarker : e ≠ .badMarker)
    (hgate : e ≠ .unsupportedFamily) :
    (errorRecord ⟨e, pt⟩).outKind ≠ 2 ∧ (errorRecord ⟨e, pt⟩).outErr ≠ 3 ∧ (errorRecord ⟨e, pt⟩).outErr ≠ 5 :=
  ⟨show kindNone ≠ 2 by decide, fun h => hmarker (errCode_injective h), fun h => hgate (errCode_injective h)⟩

/-- What only the Temp/Humidity family can report, no other frame does: a Temp/Humidity reading, BadMarker,
UnsupportedFamily (R96, R102, R120). -/
theorem evalBytes_of_classify_ne_th {cfg : Cfg} {l pt : Byte} {p : List Byte} {o : OutRecord}
    (hfam : classify cfg pt ≠ .th) (ho : evalBytes cfg (l :: pt :: p) = .ok o) :
    o.outKind ≠ 2 ∧ o.outErr ≠ 3 ∧ o.outErr ≠ 5 := by
  rw [evalBytes_cons] at ho
  split at ho
  · cases ho; exact errorRecord_not_tempHum pt nofun nofun
  split at ho
  · cases ho; exact errorRecord_not_tempHum pt nofun nofun
  split at ho
  · cases ho; exact errorRecord_not_tempHum pt nofun nofun
  · split at ho
    · cases ho; exact errorRecord_not_tempHum pt nofun nofun
    split at ho
    · rw [tempRainRecord_of_length (by omega)] at ho
      cases ho
      exact (by decide : (1#2 ≠ 2 ∧ 0#3 ≠ 3 ∧ 0#3 ≠ 5))
    · cases ho; exact errorRecord_not_tempHum pt nofun nofun
  · next hth => exact absurd hth hfam

theorem classify_ne_th_of_ptTr_eq_ptTh {cfg : Cfg} (h : cfg.ptTr = cfg.ptTh) (pt : Byte) : classify cfg pt ≠ .th := by
  intro hth
  obtain ⟨hne, heq⟩ := classify_eq_th.mp hth
  exact hne (heq.trans h.symm)

/-! ## The statements -/

/-- Settles O23: (a) to (c) by the stage that decides, (d) by the family, (e) because validation does not see the
subtype and what comes after it reports none of its errors. -/
theorem validationGuarantees : Obligations.ValidationGuarantees := by
  intro cfg l pt p
  refine ⟨fun hne => ?mismatch, fun hlen hlt => ?floor, fun hlen hpt => ⟨fun hlt => ?short, fun h9 => ?valid⟩,
    fun hfam => ?family, ?subtype⟩
  case mismatch => exact evalBytes_of_validate_error (validate_of_length_ne hne)
  case floor => exact evalBytes_of_validate_error (validate_of_lt_floor hlen hlt)
  case short => exact evalBytes_of_validate_error ((validate_of_tr hlen hpt).trans (if_pos hlt))
  case valid => exact evalBytes_of_validate_ok ((validate_of_tr hlen hpt).trans (if_neg (Nat.not_lt.mpr h9)))
  case family =>
    have hth : classify cfg pt ≠ .th := hfam.elim (fun hne h => hne (classify_eq_th.mp h).2)
      (fun heq => classify_ne_th_of_ptTr_eq_ptTh heq pt)
    obtain ⟨o, ho⟩ := evalBytes_total cfg (l :: pt :: p)
    exact ⟨o, ho, (evalBytes_of_classify_ne_th hth ho).2.1⟩
  case subtype =>
    rintro st st' fields o rfl ho hcode
    have hsame := validate_congr_of_markerAccepted (l := l) (pt := pt)
      (markerAccepted_subtype_congr cfg st st' fields (st :: fields).length)
    cases hval : validate cfg ⟨l, pt, st :: fields, (st :: fields).length⟩ with
    | error r =>
      rw [evalBytes_of_validate_error hval] at ho
      rw [← ho]
      exact evalBytes_of_validate_error (hsame.symm.trans hval)
    | ok =>
      obtain ⟨o', ho', h1, h2, h3⟩ := evalBytes_of_validate_ok hval
      obtain rfl : o = o' := Except.ok.inj (ho.symm.trans ho')
      rcases hcode with h | h | h <;> contradiction

/-- Settles O25: each variant as a tail of the payload, and either suffices. -/
theorem markerIsExactTail : Obligations.MarkerIsExactTail := by
  intro cfg p
  exact ⟨fun _ _ => markerMatches_iff, markerAccepted_iff.trans (or_congr markerMatches_iff markerMatches_iff)⟩

/-- Settles O26: with equal packet types no frame is of the Temp/Humidity family. -/
theorem equalPacketTypesAreRain : Obligations.EqualPacketTypesAreRain := by
  intro cfg bytes o heq ho
  rcases bytes with _ | ⟨l, _ | ⟨pt, p⟩⟩
  · rw [evalBytes_short cfg (by decide)] at ho
    cases ho; exact errorRecord_not_tempHum 0 nofun nofun
  · rw [evalBytes_short cfg (by simp)] at ho
    cases ho; exact errorRecord_not_tempHum 0 nofun nofun
  · exact evalBytes_of_classify_ne_th (classify_ne_th_of_ptTr_eq_ptTh heq pt) ho

/-- Settles O27: the byte taken is the whole gathered frame. -/
theorem oneByteFrameIsTooShort : Obligations.OneByteFrameIsTooShort := by
  intro s b hn
  have hindex : s.n.toNat = 0 := by rw [hn]; rfl
  obtain ⟨o, heval, hcomplete⟩ := ((gathered_nil hn).takeByte b).completeFrame
  rw [evalBytes_short _ (by simp)] at heval
  cases heval
  refine ⟨_, (exec_complete b s).trans hcomplete, rfl, rfl, rfl, rfl, rfl, rfl, rfl, rfl, ?_, fun i hi => ?_⟩
  · rw [← hindex]
    exact takeByte_find_stored b (by omega)
  · exact takeByte_find_kept b (.inl (by omega))

end Sys2Proof.Machine

/-! SUPPORT. The statements on family dispatch (spec 42_family_dispatch.md): the calibration gate as the last decision on
a Temp/Humidity frame, and what the subtype byte reaches in a record. -/

namespace Sys2Proof.Machine

/-! ## GATE_TH is all that is left to decide on a valid, listed Temp/Humidity frame (R90, R102) -/

theorem evalBytes_of_valid_listed_th {cfg : Cfg} {p : List Byte} (hpt : cfg.ptTh ≠ cfg.ptTr)
    (hfloor : 7 ≤ p.length) (hroom : p.length ≤ 254)
    (hmin : thEffCal cfg = true → cfg.thFieldsLen.toNat + mkMin cfg ≤ p.length)
    (hmarker : markerAccepted cfg p p.length = true) (hlisted : subtypeListed cfg.thSubtypes p = true) :
    evalBytes cfg (frameBytes cfg.ptTh p) =
      if thEffCal cfg = true then tempHumRecord cfg cfg.ptTh p
      else .ok (errorRecord ⟨.unsupportedFamily, cfg.ptTh⟩) := by
  have hfamMin : ¬ (thEffCal cfg = true ∧ p.length < cfg.thFieldsLen.toNat + mkMin cfg) :=
    fun ⟨hcal, hlt⟩ => Nat.not_lt.mpr (hmin hcal) hlt
  rw [frameBytes, evalBytes_cons, if_neg (not_not.mpr (frameBytes_declared hroom)), if_neg (Nat.not_lt.mpr hfloor),
    classify_eq_th.mpr ⟨hpt, rfl⟩]
  dsimp only
  rw [if_neg hfamMin, if_neg (not_not.mpr hmarker), if_neg (not_not.mpr hlisted)]

/-! ## The subtype byte reaches `rd_subtype` alone (R104) -/

/-- The same record but for the subtype it names. -/
def OutRecord.withSubtype (st : Byte) (o : OutRecord) : OutRecord :=
  { o with reading := { o.reading with rdSubtype := st } }

theorem writeOut_withSubtype (st : Byte) (o : OutRecord) (s : State) :
    writeOut (o.withSubtype st) s =
      { writeOut o s with
        out := { (writeOut o s).out with reading := { (writeOut o s).out.reading with rdSubtype := st } } } := rfl

/-- No payload offset but 0 sees the subtype byte. -/
theorem getD_cons_congr (st st' : Byte) (fields : List Byte) {k : Nat} (hk : 1 ≤ k) :
    (st :: fields).getD k 0 = (st' :: fields).getD k 0 := by
  obtain ⟨j, rfl⟩ := Nat.exists_eq_add_of_le' hk
  rw [List.getD_cons_succ, List.getD_cons_succ]

theorem tempRainRecord_withSubtype (pt st st' : Byte) {fields : List Byte} (h : 8 ≤ fields.length) :
    ∃ o, tempRainRecord pt (st :: fields) = .ok o ∧
      tempRainRecord pt (st' :: fields) = .ok (o.withSubtype st') :=
  ⟨_, tempRainRecord_of_length (Nat.succ_le_succ h), tempRainRecord_of_length (Nat.succ_le_succ h)⟩

/-- The offsets of a well-formed table are all at least 1, so each of its fields is read beside the subtype (R121). -/
theorem tempHumRecord_withSubtype {cfg : Cfg} (pt st st' : Byte) {fields : List Byte} (hok : thCfgOk cfg = true)
    (h : cfg.thFieldsLen.toNat ≤ (st :: fields).length) :
    ∃ o, tempHumRecord cfg pt (st :: fields) = .ok o ∧
      tempHumRecord cfg pt (st' :: fields) = .ok (o.withSubtype st') := by
  obtain ⟨-, ⟨hseq, -⟩, ⟨hchan, -⟩, ⟨hhum, -⟩, ⟨hhumst, -⟩, ⟨hstatus, -⟩, ⟨hid, -⟩, ⟨htemp, -⟩, -⟩ := thCfgOk_iff.mp hok
  refine ⟨_, tempHumRecord_of_length hok h, ?_⟩
  rw [tempHumRecord_of_length (p := st' :: fields) hok h, OutRecord.withSubtype]
  have hsame {k : Nat} (hk : 1 ≤ k) := getD_cons_congr st st' fields hk
  simp only [hsame hseq, hsame hchan, hsame hhum, hsame hhumst, hsame hstatus, hsame hid, hsame htemp,
    hsame (Nat.le_add_left 1 _), List.getD_cons_zero]

/-! ## The statements -/

/-- Settles O22: the gate's two sides, the record of TEMP_HUM and that of the error. -/
theorem gateDecidesOnCalibration : Obligations.GateDecidesOnCalibration := by
  intro cfg st fields hpt hfloor hroom hmin hmarker hlisted
  have hlen : (st :: fields).length = 1 + fields.length := Nat.add_comm fields.length 1
  rw [← hlen] at hmin hmarker
  have heval := evalBytes_of_valid_listed_th hpt (p := st :: fields) (by omega) (by omega) hmin hmarker hlisted
  cases hcal : thEffCal cfg with
  | true =>
    have hok : thCfgOk cfg = true := (Bool.and_eq_true_iff.mp hcal).2
    have hfields : cfg.thFieldsLen.toNat ≤ (st :: fields).length := Nat.le_trans (Nat.le_add_right _ _) (hmin hcal)
    rw [if_pos hcal, tempHumRecord_of_length hok hfields] at heval
    exact ⟨_, heval, rfl, fun _ => ⟨rfl, rfl⟩, nofun⟩
  | false =>
    rw [if_neg (Bool.eq_false_iff.mp hcal)] at heval
    exact ⟨_, heval, rfl, nofun, fun _ => ⟨rfl, rfl, rfl⟩⟩

/-- Settles O44: in both families the records of the two payloads differ in the subtype alone. -/
theorem subtypeOnlyNamesItself : Obligations.SubtypeOnlyNamesItself := by
  constructor
  · intro pt st st' fields s hlen
    obtain ⟨o, ho, ho'⟩ := tempRainRecord_withSubtype pt st st' hlen
    refine ⟨writeOut o s, exec_tempRain_of_ok s ho, ?_⟩
    rw [exec_tempRain_of_ok s ho', writeOut_withSubtype]
  · intro pt st st' fields s hok hlen
    have hfields : s.cfg.thFieldsLen.toNat ≤ (st :: fields).length := hlen.trans_eq (Nat.add_comm 1 fields.length)
    obtain ⟨o, ho, ho'⟩ := tempHumRecord_withSubtype pt st st' hok hfields
    refine ⟨writeOut o s, exec_tempHum_of_ok s ho, ?_⟩
    rw [exec_tempHum_of_ok s ho', writeOut_withSubtype]

end Sys2Proof.Machine

/-! SUPPORT. The statements on TEMP_RAIN (spec 43_temp_rain.md): the signed temperature, the payload bytes the record is
made of, and the frames that reach the instruction. -/

namespace Sys2Proof.Machine

/-! ## The signed value of a sign-and-magnitude pair (R66, R112, R126) -/

theorem signMag_natAbs (h l : Byte) : (signMag h l).toInt.natAbs = h.toNat % 128 * 256 + l.toNat := by
  rw [signMag_toInt]
  split
  · exact (Int.natAbs_neg _).trans (Int.natAbs_natCast _)
  · exact Int.natAbs_natCast _

/-- A magnitude has 15 bits, so neither sign reaches 32768. -/
theorem signMag_toInt_range (h l : Byte) : -32767 ≤ (signMag h l).toInt ∧ (signMag h l).toInt ≤ 32767 := by
  have habs := signMag_natAbs h l
  have hl := l.isLt
  omega

theorem signMag_toInt_nonpos {h : Byte} (l : Byte) (hsign : 128 ≤ h.toNat) : (signMag h l).toInt ≤ 0 := by
  rw [signMag_toInt, if_pos hsign]
  exact Int.neg_nonpos_of_nonneg (Int.natCast_nonneg _)

theorem signMag_toInt_nonneg {h : Byte} (l : Byte) (hsign : h.toNat < 128) : 0 ≤ (signMag h l).toInt := by
  rw [signMag_toInt, if_neg (Nat.not_le.mpr hsign)]
  exact Int.natCast_nonneg _

theorem be16_toNat_mul_256 (h l : Byte) : (be16 h l).toNat = h.toNat * 256 + l.toNat := by
  rw [be16_toNat, Nat.mul_comm]

theorem nibble_toNat_le (x : Nibble) : x.toNat ≤ 15 := Nat.le_of_lt_succ x.isLt

/-! ## The record is made of payload bytes 0 to 8 (R110, R118) -/

theorem tempRainRecord_append (pt : Byte) {p : List Byte} (tail : List Byte) (h : 9 ≤ p.length) :
    tempRainRecord pt (p ++ tail) = tempRainRecord pt p := by
  have hsame {k : Nat} (hk : k < 9) : (p ++ tail).getD k 0 = p.getD k 0 :=
    List.getD_append p tail 0 k (Nat.lt_of_lt_of_le hk h)
  have happend : 9 ≤ (p ++ tail).length := h.trans (List.length_append ▸ Nat.le_add_right _ _)
  rw [tempRainRecord_of_length h, tempRainRecord_of_length happend]
  simp (disch := decide) only [hsame]

theorem subtypeListed_append (set : BitVec 256) {p : List Byte} (tail : List Byte) (h : 1 ≤ p.length) :
    subtypeListed set (p ++ tail) = subtypeListed set p := by
  cases p with
  | nil => cases h
  | cons st rest => rfl

/-! ## The subtype is all that is left to decide on a valid Temp/Rain frame (R90, R101) -/

theorem evalBytes_of_valid_tr {cfg : Cfg} {l : Byte} {p : List Byte} (hlen : l.toNat = 1 + p.length)
    (h : 9 ≤ p.length) :
    evalBytes cfg (l :: cfg.ptTr :: p) =
      if subtypeListed cfg.trSubtypes p = true then tempRainRecord cfg.ptTr p
      else .ok (errorRecord ⟨.unknownFamily, cfg.ptTr⟩) := by
  have hfloor : ¬ p.length < 7 := by omega
  rw [evalBytes_cons, if_neg (not_not.mpr hlen), if_neg hfloor, classify_eq_tr.mpr rfl]
  dsimp only
  rw [if_neg (Nat.not_lt.mpr h)]

/-! ## The statements -/

/-- Settles O11, by the record of a payload of nine bytes or more. -/
theorem tempRainWritesFields : Obligations.TempRainWritesFields := by
  intro pt p s hlen
  exact ⟨_, exec_tempRain_of_ok s (tempRainRecord_of_length hlen), rfl, rfl, rfl, rfl, rfl, be16_toNat_mul_256 _ _,
    be16_toNat_mul_256 _ _, rfl, rfl, rfl, rfl, rfl, rfl, rfl, rfl⟩

/-- Settles O12: the temperature is the sign-and-magnitude pair at offsets 4 and 5. -/
theorem tempRainTemperature : Obligations.TempRainTemperature := by
  intro pt p s hlen
  exact ⟨_, exec_tempRain_of_ok s (tempRainRecord_of_length hlen), signMag_natAbs _ _, signMag_toInt_nonpos _,
    signMag_toInt_nonneg _, signMag_toInt_range _ _⟩

/-- Settles O14: a valid, listed frame answers the record of TEMP_RAIN, whose fields are in range for every payload. -/
theorem tempRainDecodesEveryPayload : Obligations.TempRainDecodesEveryPayload := by
  intro cfg l st fields hl h8 hlisted
  have hcount : l.toNat = 1 + (st :: fields).length := by rw [List.length_cons]; omega
  have hlen : 9 ≤ (st :: fields).length := Nat.succ_le_succ h8
  have heval := (evalBytes_of_valid_tr (cfg := cfg) hcount hlen).trans (if_pos hlisted)
  exact ⟨_, heval.trans (tempRainRecord_of_length hlen), rfl, rfl, signMag_ne_0x8000 _ _, nibble_toNat_le _,
    nibble_toNat_le _⟩

/-- Settles O15: the record, and the subtype that decides whether it is written, do not see the tail. -/
theorem tempRainIgnoresTail : Obligations.TempRainIgnoresTail := by
  intro cfg pt p tail s hlen hroom
  have hcount : (p ++ tail).length = p.length + tail.length := List.length_append
  constructor
  · have hrecord := tempRainRecord_of_length (pt := pt) hlen
    rw [exec_tempRain_of_ok s hrecord, exec_tempRain_of_ok s ((tempRainRecord_append pt tail hlen).trans hrecord)]
  · rw [frameBytes, frameBytes, evalBytes_of_valid_tr (frameBytes_declared (by omega)) hlen,
      evalBytes_of_valid_tr (frameBytes_declared (by omega)) (by omega), tempRainRecord_append _ tail hlen,
      subtypeListed_append _ tail (by omega)]

/-- Settles O18: a frame that decodes is the encoding of a well-formed instruction, whose payload holds every byte the
instruction reads. -/
theorem decodedInstructionCompletes : Obligations.DecodedInstructionCompletes := by
  intro s bytes i hdecode
  obtain ⟨hwf, hencode⟩ := decodeFrame_eq_ok_iff_encode.mp hdecode
  cases i with
  | tempRain pt p =>
    obtain rfl : frameBytes pt p = bytes := Encoding.frame.inj hencode
    obtain ⟨-, hlen, -, -⟩ := wellFormed_tempRain_iff.mp hwf
    exact ⟨_, exec_tempRain_of_ok s (tempRainRecord_of_length hlen), rfl, rfl, rfl⟩
  | tempHum pt p =>
    obtain rfl : frameBytes pt p = bytes := Encoding.frame.inj hencode
    obtain ⟨-, -, -, -, hmin, -, -, hcal⟩ := wellFormed_tempHum_iff.mp hwf
    have hok : thCfgOk s.cfg = true := (Bool.and_eq_true_iff.mp hcal).2
    have hfields : s.cfg.thFieldsLen.toNat ≤ p.length := Nat.le_trans (Nat.le_add_right _ _) hmin
    exact ⟨_, exec_tempHum_of_ok s (tempHumRecord_of_length hok hfields), rfl, rfl, rfl⟩
  | accept b => cases hencode
  | complete b => cases hencode
  | idle => cases hencode
  | reset straps => cases hencode

end Sys2Proof.Machine

/-! SUPPORT. The statements on TEMP_HUM (spec 44_temp_humidity.md): the calibration that a reading needs, and the record of
a payload that holds the field region. -/

namespace Sys2Proof.Machine

/-! ## Effective calibration (R121, R132) -/

theorem thEffCal_iff {cfg : Cfg} : thEffCal cfg = true ↔ cfg.thCal = true ∧ thCfgOk cfg = true :=
  Bool.and_eq_true_iff

/-- A Temp/Humidity reading comes from an effectively calibrated machine: an error has kind NONE, and of the two decoders
only the gated one answers kind 2 (R22, R102, R143). -/
theorem thEffCal_of_evalBytes_outKind {cfg : Cfg} {bytes : List Byte} {o : OutRecord} (ho : evalBytes cfg bytes = .ok o)
    (hkind : o.outKind = 2) : thEffCal cfg = true := by
  rcases evalBytes_cases ho with ⟨r, -, rfl⟩ | ⟨sel, hsel, hrecord⟩
  · exact absurd hkind (show kindNone ≠ 2 by decide)
  · obtain ⟨l, rfl, -, -, ⟨hrain, -, hlen, -⟩ | ⟨-, -, -, hcal, -⟩⟩ := selectDecoder_eq_ok.mp hsel
    · have hpayload : 9 ≤ sel.payload.length := Nat.le_of_add_le_add_right (b := 2) hlen
      simp only [selectedRecord, hrain, tempRainRecord_of_length hpayload] at hrecord
      cases hrecord
      exact absurd hkind (show kindTempRain ≠ 2 by decide)
    · exact hcal

/-! ## The humidity status (R128) -/

theorem exists_code_humStatus_slice2 (cfg : Cfg) (b : Byte) (sh : Nat) :
    ∃ code : BitVec 2, code.toNat = b.toNat / 2 ^ sh % 4 ∧
      humStatus cfg (slice2 b sh) = cfg.thHumstMap[code.toNat] :=
  ⟨slice2 b sh, slice2_toNat b sh, rfl⟩

/-! ## The statements -/

/-- Settles O16, by the record of a payload that holds the field region. -/
theorem tempHumWritesFields : Obligations.TempHumWritesFields := by
  intro pt p s hok hlen
  exact ⟨_, exec_tempHum_of_ok s (tempHumRecord_of_length hok hlen), rfl, rfl, rfl, rfl, rfl, rfl, be16_toNat_mul_256 _ _,
    rfl, exists_code_humStatus_slice2 _ _ _, rfl, rfl, rfl, rfl, rfl, rfl⟩

/-- Settles O17: the temperature is the sign-and-magnitude pair at the configured offset. -/
theorem tempHumTemperature : Obligations.TempHumTemperature := by
  intro pt p s hok hlen
  exact ⟨_, exec_tempHum_of_ok s (tempHumRecord_of_length hok hlen), signMag_natAbs _ _, signMag_toInt_nonpos _,
    signMag_toInt_nonneg _⟩

/-- Settles O21: either ground denies the effective calibration that a reading needs. -/
theorem uncalibratedNeverReads : Obligations.UncalibratedNeverReads := by
  intro cfg bytes o hground ho hkind
  obtain ⟨hcal, hok⟩ := thEffCal_iff.mp (thEffCal_of_evalBytes_outKind ho hkind)
  rcases hground with hnot | hnot
  · exact Bool.eq_false_iff.mp hnot hcal
  · exact Bool.eq_false_iff.mp hnot hok

/-- Settles O20: the two quantifiers over offsets are the table's conditions, one for each offset. -/
theorem effectiveCalibrationIsAsTabled : Obligations.EffectiveCalibrationIsAsTabled := by
  intro cfg
  rw [thEffCal_iff, thCfgOk_iff]
  simp only [forall_eq_or_imp, forall_eq, and_assoc]

end Sys2Proof.Machine

/-! SUPPORT. The statements on errors (spec 60_exceptions.md): the error table read row by row beside the chain of checks
that `Eval` runs, and what taking an error writes. -/

namespace Sys2Proof.Machine

/-! ## The error table of a frame that has a header (R140, R142) -/

/-- The rows of the error table that depend on the family, for a payload `p`: the family minimum, the marker, the
dispatch table and the calibration gate. -/
def familyRows (cfg : Cfg) (p : List Byte) : Family → List (Bool × BitVec 3)
  | .none => [(false, 2), (false, 3), (true, 4), (false, 5)]
  | .tr => [(decide (p.length < 9), 2), (false, 3), (!cfg.trSubtypes.getLsbD (p.getD 0 0).toNat, 4), (false, 5)]
  | .th =>
    [(thEffCal cfg && decide (p.length < cfg.thFieldsLen.toNat + mkMin cfg), 2),
      (!markerAccepted cfg p p.length, 3), (!cfg.thSubtypes.getLsbD (p.getD 0 0).toNat, 4), (!thEffCal cfg, 5)]

/-- The table is the rows of the header, the length and the floor, then those of the frame's family. -/
theorem errorTable_cons (cfg : Cfg) (l pt : Byte) (p : List Byte) :
    errorTable cfg (l :: pt :: p) =
      (false, 2) :: (decide (l.toNat ≠ 1 + p.length), 1) :: (decide (p.length < 7), 2) ::
        familyRows cfg p (classify cfg pt) := by
  have hheader : ¬ p.length + 1 + 1 < 2 := by omega
  have hlength : p.length + 1 + 1 - 1 = 1 + p.length := by omega
  cases hfam : classify cfg pt with
  | none =>
    obtain ⟨hrain, hhum⟩ := classify_eq_none.mp hfam
    simp [errorTable, familyRows, hheader, hlength, hrain, hhum]
  | tr =>
    have hrain := classify_eq_tr.mp hfam
    simp [errorTable, familyRows, hheader, hlength, hrain]
  | th =>
    obtain ⟨hrain, hhum⟩ := classify_eq_th.mp hfam
    have hrain' : cfg.ptTh ≠ cfg.ptTr := hhum ▸ hrain
    simp [errorTable, familyRows, ← mkMin.eq_def, hheader, hlength, hrain', hhum]

/-! ## A result and the rows it was decided by -/

/-- The result carries the packet type and reports the first of these rows whose condition holds; where none holds it is
the reading of the packet type's family. -/
def Reports (cfg : Cfg) (pt : Byte) (x : Except Fault OutRecord) (rows : List (Bool × BitVec 3)) : Prop :=
  ∃ o, x = .ok o ∧ o.outPt = pt ∧
    match rows.find? (·.1) with
    | some (_, code) => o.outErr = code ∧ o.outKind = 0 ∧ o.reading = Reading.zero
    | none => o.outErr = 0 ∧ o.outKind = if pt = cfg.ptTr then 1 else 2

section Rows

variable {cfg : Cfg} {pt : Byte} {x : Except Fault OutRecord} {rows : List (Bool × BitVec 3)} {c : Bool}

theorem Reports.raise {e : FrameError} (hc : c = true) :
    Reports cfg pt (.ok (errorRecord ⟨e, pt⟩)) ((c, errCode e) :: rows) := by
  subst hc
  exact ⟨_, rfl, rfl, rfl, rfl, rfl⟩

theorem Reports.skip {code : BitVec 3} (hc : c = false) (h : Reports cfg pt x rows) :
    Reports cfg pt x ((c, code) :: rows) := by
  subst hc
  exact h

/-- A check of the decoder beside the row of its condition: either both end here, or both go on. -/
theorem Reports.check {e : FrameError} {P : Prop} [Decidable P] (hc : c = true ↔ P) (h : ¬ P → Reports cfg pt x rows) :
    Reports cfg pt (if P then .ok (errorRecord ⟨e, pt⟩) else x) ((c, errCode e) :: rows) := by
  split
  · next hP => exact .raise (hc.mpr hP)
  · next hP => exact .skip (Bool.eq_false_iff.mpr (mt hc.mp hP)) (h hP)

end Rows

/-! ## `Eval` and the error table in step (R142) -/

/-- A frame without a header is decided by the table's first row. -/
theorem reports_of_short (cfg : Cfg) {bytes : List Byte} (h : bytes.length < 2) :
    Reports cfg (bytes.getD 1 0) (evalBytes cfg bytes) (errorTable cfg bytes) := by
  rw [evalBytes_short cfg h, List.getD_eq_default _ _ (Nat.le_of_lt_succ h)]
  exact .raise (decide_eq_true h)

/-- A frame with a header runs through the checks as the table is read: the length, the floor, then its family's. -/
theorem reports_of_header (cfg : Cfg) (l pt : Byte) (p : List Byte) :
    Reports cfg pt (evalBytes cfg (l :: pt :: p)) (errorTable cfg (l :: pt :: p)) := by
  rw [evalBytes_cons, errorTable_cons]
  refine .skip rfl (.check decide_eq_true_iff fun _ => .check decide_eq_true_iff fun hfloor => ?family)
  have hsubtype {set : BitVec 256} : subtypeListed set p = set.getLsbD (p.getD 0 0).toNat := subtypeListed_eq (by omega)
  cases hfam : classify cfg pt with
  | none => exact .skip rfl (.skip rfl (.raise rfl))
  | tr =>
    dsimp only
    rw [← ite_not (p := subtypeListed cfg.trSubtypes p = true)]
    refine .check decide_eq_true_iff fun hmin => .skip rfl (.check (by simp [hsubtype]) fun _ => .skip rfl ?_)
    exact ⟨_, tempRainRecord_of_length (by omega), rfl, rfl, (if_pos (classify_eq_tr.mp hfam)).symm⟩
  | th =>
    dsimp only
    rw [← ite_not (p := thEffCal cfg = true)]
    refine .check (by simp) fun hmin => .check (by simp) fun _ => .check (by simp [hsubtype]) fun _ =>
      .check (by simp) fun hgate => ?_
    have hcal : thEffCal cfg = true := not_not.mp hgate
    have hfields : cfg.thFieldsLen.toNat ≤ p.length := by
      have := mt (And.intro hcal) hmin
      omega
    exact ⟨_, tempHumRecord_of_length (thEffCal_iff.mp hcal).2 hfields, rfl, rfl,
      (if_neg (classify_eq_th.mp hfam).1).symm⟩

theorem reports_errorTable (cfg : Cfg) (bytes : List Byte) :
    Reports cfg (bytes.getD 1 0) (evalBytes cfg bytes) (errorTable cfg bytes) := by
  rcases bytes with _ | ⟨l, _ | ⟨pt, p⟩⟩
  · exact reports_of_short cfg (by decide)
  · exact reports_of_short cfg (by simp)
  · exact reports_of_header cfg l pt p

/-! ## What an error records (R141) -/

/-- Every result carries the frame's packet type. -/
theorem evalBytes_outPt {cfg : Cfg} {bytes : List Byte} {o : OutRecord} (ho : evalBytes cfg bytes = .ok o) :
    o.outPt = bytes.getD 1 0 := by
  obtain ⟨o', ho', hpt, -⟩ := reports_errorTable cfg bytes
  obtain rfl : o = o' := Except.ok.inj (ho.symm.trans ho')
  exact hpt

theorem evalFrame_of_selectDecoder_error {cfg : Cfg} {n : Nat} {bytes : List Byte} {r : Reject}
    (h : selectDecoder cfg n bytes = .error r) : evalFrame cfg n bytes = .ok (errorRecord r) := by
  rw [evalFrame, h]

/-- A rejection names the packet type of the bytes fetched; an oversize frame has one too (R92(d)). -/
theorem selectDecoder_error_pt {cfg : Cfg} {n : Nat} {bytes : List Byte} {r : Reject}
    (hlen : bytes.length = min n fbSize) (h : selectDecoder cfg n bytes = .error r) : r.pt = bytes.getD 1 0 := by
  rw [fbSize] at hlen
  by_cases hroom : n ≤ 256
  · obtain rfl : n = bytes.length := by omega
    exact evalBytes_outPt (evalFrame_of_selectDecoder_error h)
  · obtain _ | ⟨l, _ | ⟨pt, payload⟩⟩ := bytes
    · simp at hlen; omega
    · simp at hlen; omega
    · rw [selectDecoder_long (by omega)] at h
      cases h
      rfl

/-- The end of a rejected frame takes the error (R143). -/
theorem completeFrame_of_selectDecoder_error {s : State} {bytes : List Byte} {r : Reject}
    (hfetch : fetchFrame s.fb s.n.toNat = .ok bytes) (h : selectDecoder s.cfg s.n.toNat bytes = .error r) :
    completeFrame s = .next (raiseError r s) :=
  completeFrame_of_eval_ok hfetch (evalFrame_of_selectDecoder_error h)

/-! ## The statements -/

/-- Settles O24: `Eval` checks in the order of the table. -/
theorem firstErrorIsReported : Obligations.FirstErrorIsReported :=
  reports_errorTable

/-- Settles O29: the byte taken completes the frame, whose rejection is then taken. -/
theorem errorEntryWritesRecord : Obligations.ErrorEntryWritesRecord := by
  intro s b bytes r hfetch hreject
  refine ⟨selectDecoder_error_pt (fetchFrame_eq_ok.mp hfetch).1 hreject, ?_⟩
  rw [exec_complete, completeFrame_of_selectDecoder_error hfetch hreject]
  rfl

end Sys2Proof.Machine

/-! SUPPORT. The statements on reset and hazards (spec 70_reset_and_hazards.md): what RESET writes, frames longer than
the buffer, and the observable of a run as `Eval` of the frames its events complete. -/

namespace Sys2Proof

/-- `rst` wins over the other inputs (R160). -/
theorem decodeEdge_of_rst {e : PortEdge} (hrst : e.word.getLsbD 10 = true) : decodeEdge e = .reset e.straps :=
  if_pos hrst

end Sys2Proof

namespace Sys2Proof.Machine

theorem exec_reset (straps : Cfg) (s : State) : exec (.reset straps) s = .next (clearOutputs (latchCfg straps s)) := rfl

/-! ## Bytes past the end of the buffer (R166) -/

/-- Past the 256th byte a byte taken is dropped, and the counter stands at 257 (R23, R82). -/
theorem takeByte_of_full (b : Byte) {s : State} (hfull : 256 ≤ s.n.toNat) : takeByte b s = { s with n := 257 } := by
  have hstore : storeByte b s = s := by
    rw [storeByte, if_neg (by omega)]
  have hcount : min (s.n.toNat + 1) nSat = 257 := by
    rw [nSat]
    omega
  rw [takeByte, hstore, countByte, hcount]
  rfl

/-- A frame counted past the buffer is rejected for its length when it ends, with its second byte as packet type. -/
theorem completeFrame_of_oversize {s : State} (hs : BufferHolds s) (hover : 257 ≤ s.n.toNat) :
    ∃ pt, s.fb.find 1 = some pt ∧ completeFrame s = .next (raiseError ⟨.lengthMismatch, pt⟩ s) := by
  obtain ⟨bytes, hfetch⟩ := fetchFrame_total hs
  obtain ⟨hlen, hlisted⟩ := fetchFrame_eq_ok.mp hfetch
  rw [fbSize] at hlen hlisted
  obtain _ | ⟨l, _ | ⟨pt, payload⟩⟩ := bytes
  · rw [List.length_nil] at hlen
    omega
  · rw [List.length_singleton] at hlen
    omega
  · exact ⟨pt, hlisted 1 (by omega), completeFrame_of_selectDecoder_error hfetch (selectDecoder_long hover)⟩

/-! ## The observable of a run, step by step (R169) -/

/-- A step that leaves the strobe at 0 adds nothing to the observable. -/
theorem results_of_quiet_step {s t : State} (k : Nat) (hstep : step s = .next t) (hquiet : t.outValid = false) :
    results (k + 1) s = results k t := by
  simp only [results, hstep, hquiet, Bool.false_eq_true, if_false]

/-- A step that sets the strobe adds the record it leaves. -/
theorem results_of_strobed_step {s t : State} (k : Nat) (hstep : step s = .next t) (hstrobe : t.outValid = true) :
    results (k + 1) s = t.out :: results k t := by
  simp only [results, hstep, hstrobe, if_true]

/-- From any point of a frame, the bytes that arrived so far decide with the events to come what the run shows. -/
theorem results_of_gathered (events : List PortEdge) {s : State} {got : List Byte} (hs : Gathered s got)
    (hpending : s.pending = events) :
    (results events.length s).map Except.ok = expectedResults s.cfg got (events.map decodeEdge) := by
  induction events generalizing s got with
  | nil => rfl
  | cons e rest ih =>
    have hnext : nextEdge s = e := nextEdge_of_pending_cons hpending
    have htail : (passEdge s).pending = rest := by rw [passEdge_pending, hpending, List.tail_cons]
    have hpass : Gathered (passEdge s) got := hs.congr rfl rfl
    rw [List.length_cons, List.map_cons]
    rcases decodeEdge_cases e with ⟨b, he⟩ | ⟨b, he⟩ | he | ⟨straps, he⟩ <;> rw [he, expectedResults]
    · rw [results_of_quiet_step _ (step_of_accept (hnext ▸ he)) rfl]
      exact ih (s := dropValid (takeByte b (passEdge s))) ((hpass.takeByte b).congr rfl rfl) htail
    · obtain ⟨o, heval, hcomplete⟩ := (hpass.takeByte b).completeFrame
      have heval' : evalBytes s.cfg (got ++ [b]) = .ok o := heval
      rw [results_of_strobed_step _ ((step_of_complete (hnext ▸ he)).trans hcomplete) rfl, List.map_cons, heval']
      exact congrArg _ (ih (s := finishFrame o (takeByte b (passEdge s))) (gathered_nil rfl) htail)
    · rw [results_of_quiet_step _ (step_of_idle (hnext ▸ he)) rfl]
      exact ih (s := dropValid (passEdge s)) (hpass.congr rfl rfl) htail
    · rw [results_of_quiet_step _ (step_of_reset (hnext ▸ he)) rfl]
      exact ih (s := clearOutputs (latchCfg straps (passEdge s))) (gathered_nil rfl) htail

/-! ## The statements -/

/-- Settles O28: the byte taken is dropped, and the end of the frame, now counted at 257, rejects it for its length. -/
theorem oversizeFrameIsMismatch : Obligations.OversizeFrameIsMismatch := by
  intro s b hfull hlisted
  rw [exec_accept, exec_complete, takeByte_of_full b hfull]
  have hholds : BufferHolds { s with n := 257 } := fun i hi => hlisted i (by omega)
  obtain ⟨pt, hpt, hcomplete⟩ := completeFrame_of_oversize hholds (Nat.le_refl 257)
  exact ⟨rfl, pt, hpt, hcomplete⟩

/-- Settles O31: between frames no byte has arrived. -/
theorem runResultsAreEvals : Obligations.RunResultsAreEvals :=
  fun s hn => results_of_gathered s.pending (gathered_nil hn) rfl

/-- Settles O10. -/
theorem resetLatchesAndClears : Obligations.ResetLatchesAndClears :=
  ⟨exec_reset, fun _ => decodeEdge_of_rst⟩

end Sys2Proof.Machine
